-- ==== Sys2Proof/Word.lean ====
section
/-! DEFINITION. The widths of the core's values (spec/00_scope.md section 5.1, rule R3): words of 64 bits, bytes
of 8 bits and the 32-bit command header. -/

namespace Sys2Proof

/-- A word: an unsigned integer in [0, 2^64) (rule R3, "word width"). -/
abbrev Word := BitVec 64

/-- A byte: an unsigned integer in [0, 256). -/
abbrev Byte := BitVec 8

/-- A command header `HDR`: a 32-bit number, bit 0 its least significant bit (rule R20). It has no byte order. -/
abbrev Header := BitVec 32

end Sys2Proof
end

