-- ==== Sys2Proof/Syntax.lean ====
section
/-! DEFINITION. The commands of the core (spec/30_encoding.md; the three rows of spec/opcode_table.json) and the form
in which the host sends them. -/

namespace Sys2Proof

/-- What the host sends (spec/30_encoding.md section 1): a header and a payload, delivered together and whole
(rule R24). A payload is any finite sequence of bytes. -/
structure Command where
  /-- `HDR`, the 32-bit header -/
  hdr : Header
  /-- `P`, the payload, in index order -/
  payload : List Byte
deriving DecidableEq, Repr

/-- The instructions of the core: one constructor for each row of spec/opcode_table.json. -/
inductive Instr where
  /-- INIT (rule R21): the requested output length `NN`, an unsigned integer used as it stands, and the key. -/
  | init (nn : Nat) (key : List Byte)
  /-- UPDATE (rule R22): the next message bytes. -/
  | update (data : List Byte)
  /-- FINAL (rule R23): no operand. -/
  | final
deriving DecidableEq, Repr

end Sys2Proof
end

