-- ==== Sys2Proof/WellFormed.lean ====
section
/-! DEFINITION. Which instructions have an encoding: `NN` must fit its 8-bit field (rule R20). The legal range 1 to 64
is NOT a matter of well-formedness: INIT itself refuses the other values (rules R21, R46). -/

namespace Sys2Proof

/-- `NN = HDR[15:8]` is "an unsigned 8-bit integer" (rule R20): INIT has an encoding exactly for 0 to 255; every
payload length decodes (rule R21). UPDATE and FINAL always have one. -/
def Instr.wellFormed : Instr → Bool
  | .init nn _ => decide (nn < 256)
  | .update _ => true
  | .final => true

end Sys2Proof
end

