-- ==== Sys2Proof/Decode.lean ====
section
/-! DEFINITION. The command decoder, total on every header and payload (rules R20 to R24, R27), the encoder written from
the same field table, the opcode table's match and mask rows, and the host's reading of a table word. -/

namespace Sys2Proof

/-- `OP = HDR[7:0]` (rule R20). -/
def opField (hdr : Header) : BitVec 8 := hdr.extractLsb' 0 8

/-- `NN = HDR[15:8]` (rule R20). -/
def nnField (hdr : Header) : BitVec 8 := hdr.extractLsb' 8 8

/-- `RSV = HDR[31:16]` (rule R20). -/
def rsvField (hdr : Header) : BitVec 16 := hdr.extractLsb' 16 16

/-- Why a pair `(HDR, P)` is not a command (rule R27). The core reports all four alike, as IllegalCommand, and records
no further value (rule R59). -/
inductive Illegal where
  /-- a non-zero `RSV` -/
  | reservedBits
  /-- `OP = 0x00` or `OP` in 0x04 to 0xFF -/
  | reservedOpcode
  /-- a non-zero `NN` on UPDATE or FINAL -/
  | nnNotZero
  /-- a non-empty payload on FINAL -/
  | payloadOnFinal
deriving DecidableEq, Repr

/-- The decoder (rules R21, R22, R23, R27). Every `NN` and every payload length decodes as INIT. -/
def decode (c : Command) : Except Illegal Instr :=
  if rsvField c.hdr ≠ 0 then .error .reservedBits
  else if opField c.hdr = 0x01 then .ok (.init (nnField c.hdr).toNat c.payload)
  else if opField c.hdr = 0x02 then
    if nnField c.hdr = 0 then .ok (.update c.payload) else .error .nnNotZero
  else if opField c.hdr = 0x03 then
    if nnField c.hdr ≠ 0 then .error .nnNotZero
    else if c.payload = [] then .ok .final else .error .payloadOnFinal
  else .error .reservedOpcode

/-- Format C of rule R20, most significant field first: `RSV`, `NN`, `OP`. -/
def formatC (rsv : BitVec 16) (nn op : BitVec 8) : Header := rsv ++ nn ++ op

/-- The encoder (rules R21, R22, R23): the command that stands for a well-formed instruction. DESIGN CHOICE, assumption
log 15: the spec gives an INIT with `NN` above 255 no encoding; on such an ill-formed term the encoder keeps the low 8
bits of `NN`, and nothing rests on it. -/
def encode : Instr → Command
  | .init nn key => ⟨formatC 0 (BitVec.ofNat 8 nn) 0x01, key⟩
  | .update data => ⟨formatC 0 0 0x02, data⟩
  | .final => ⟨formatC 0 0 0x03, []⟩

/-- One row of the opcode map (spec/30_encoding.md section 3): its match under its mask. -/
structure OpcodeRow where
  /-- the row's mnemonic -/
  mnemonic : String
  /-- the fixed bits' values -/
  pattern : Header
  /-- which bits are fixed -/
  mask : Header
deriving DecidableEq, Repr

/-- The opcode map (rules R21, R22, R23). -/
def opcodeRows : List OpcodeRow :=
  [⟨"INIT", 0x00000001, 0xFFFF00FF⟩, ⟨"UPDATE", 0x00000002, 0xFFFFFFFF⟩, ⟨"FINAL", 0x00000003, 0xFFFFFFFF⟩]

/-- A header matches a row when it agrees with it on the masked bits. -/
def OpcodeRow.hits (r : OpcodeRow) (hdr : Header) : Bool := hdr &&& r.mask == r.pattern

/-- The mnemonic of an instruction, as spec/opcode_table.json spells it. -/
def Instr.mnemonic : Instr → String
  | .init _ _ => "INIT"
  | .update _ => "UPDATE"
  | .final => "FINAL"

/-- The command a word of the opcode table stands for: the low 32 bits are the header. A table row has 32 bits, so its
payload is empty; were more bits given, each whole byte above bit 31 would be a payload byte, lowest first (assumption
log 6). -/
def tableCommand (nbits w : Nat) : Command where
  hdr := BitVec.ofNat 32 (w % 2 ^ nbits)
  payload := (List.range ((nbits - 32) / 8)).map fun k => BitVec.ofNat 8 (w / 2 ^ (32 + 8 * k))

/-- What the decoder reads from a word of the opcode table. -/
def decodeTableWord (nbits w : Nat) : Option Instr :=
  match decode (tableCommand nbits w) with
  | .ok i => some i
  | .error _ => none

end Sys2Proof
end

