-- ==== Sys2Proof/Config.lean ====
section
/-! DEFINITION. What the spec leaves open about the core: the five named reset parameters of
spec/92_eei_decisions.md ("Open parameters") and the values a successful FINAL or a reset between commands leaves
unspecified (rules R48, R67, R68). The fixed constants of rule R3 and R4 are no configuration: they stand with the
operations that use them (Machine/Mixing.lean, Machine/Compression.lean). -/

namespace Sys2Proof

/-- The Output Length (rule R9): "an integer in [1, 64]", 7 bits wide. The range travels with the value, so that the
digest extractor is never asked for a length it is not defined on (spec/93_implementation_defined.md U9). -/
structure OutLen where
  /-- the number of digest bytes -/
  val : Nat := 1
  /-- rule R9: at least 1 -/
  one_le : 1 ≤ val := by decide
  /-- rule R9: at most 64 -/
  le_64 : val ≤ 64 := by decide
deriving DecidableEq, Repr, Inhabited

/-- One value for each of the state elements `H`, `T0`, `T1`, `BUF`, `BUFLEN`, `OUTLEN`, whose contents are
unspecified after reset (rule R67) and after a successful FINAL (rule R48). -/
structure OpenValues where
  /-- for `H[0..7]` -/
  h : Vector Word 8
  /-- for `T0` -/
  t0 : Word
  /-- for `T1` -/
  t1 : Word
  /-- for `BUF[0..127]` -/
  buf : Vector Byte 128
  /-- for `BUFLEN`, an integer 0 to 128 -/
  buflen : Fin 129
  /-- for `OUTLEN` -/
  outlen : OutLen
deriving DecidableEq, Repr, Inhabited

/-- `RESET_H`, `RESET_T`, `RESET_BUF`, `RESET_BUFLEN`, `RESET_OUTLEN` (spec/92_eei_decisions.md, open parameters):
the values the model names for the state right after reset. DESIGN CHOICE, unsafe, assumption log 1: the spec gives
none and asks that no claim rest on them; zero, and the least legal value for `OUTLEN`. -/
def Config.resetValues : OpenValues where
  h := Vector.replicate 8 0
  t0 := 0
  t1 := 0
  buf := Vector.replicate 128 0
  buflen := 0
  outlen := ⟨1, by decide, by decide⟩

/-- The free values of the model: the n-th draw gives the contents that a successful FINAL (rule R48) or a reset
between commands (rules R67, R68) leaves unspecified. Nothing constrains them (assumption log 2, safe). -/
opaque Config.openValues : Nat → OpenValues

end Sys2Proof
end

