-- ==== Sys2Proof/Machine/State.lean ====
section
/-! DEFINITION. The state of one core instance: the seven elements of spec/10_state.md, and beside them the model's own
record of the command interface (the host's events still to come, the responses already given) and a count of free
values drawn. Also the outcomes a step may have besides a next state: there are none the spec describes. -/

namespace Sys2Proof.Machine

/-- The state tag (rule R10). -/
inductive Tag where
  | fresh
  | active
  | finalized
deriving DecidableEq, Repr

/-- The status of a response (rule R25). -/
inductive Status where
  /-- the command took effect -/
  | ok
  /-- "output length or key length out of allowed range" (rule R57) -/
  | invalidParameter
  /-- "streaming context reused after finalization, or `final` called twice" (rule R58) -/
  | invalidUsage
  /-- the pair `(HDR, P)` is not a well-formed command (rule R59) -/
  | illegalCommand
deriving DecidableEq, Repr

/-- The response `(STATUS, D)` to one command (rule R25). -/
structure Response where
  /-- `STATUS` -/
  status : Status
  /-- `D`, byte 0 first; empty but for a successful FINAL -/
  digest : List Byte
deriving DecidableEq, Repr

/-- What the outside world does to the core: the host sends a command (spec/30_encoding.md section 1), or the core is
reset between two commands (rule R68). -/
inductive Event where
  | command (c : Command)
  | reset
deriving DecidableEq, Repr

/-- One core instance. The first seven fields are the whole architectural state of spec/10_state.md; the last three are
the model's own (assumption log 3 for `inbox` and `responses`, 2 for `draws`): no command can read them. -/
structure State where
  /-- `H[0..7]`, the Hash State (rule R6) -/
  h : Vector Word 8
  /-- `T0`, the low word of the Byte Counter (rule R7) -/
  t0 : Word
  /-- `T1`, the high word of the Byte Counter (rule R7) -/
  t1 : Word
  /-- `BUF[0..127]`, the block buffer (rule R8) -/
  buf : Vector Byte 128
  /-- `BUFLEN`, 0 to 128: how many leading bytes of `BUF` await compression (rule R8) -/
  buflen : Fin 129
  /-- `OUTLEN`, the Output Length (rule R9) -/
  outlen : OutLen
  /-- `TAG`, the state tag (rule R10) -/
  tag : Tag
  /-- the model's own: what the outside world does next, in order (rule R18) -/
  inbox : List Event
  /-- the model's own: the responses given so far, oldest first (rule R25) -/
  responses : List Response
  /-- the model's own: how many times unspecified contents have been drawn from `Config.openValues` -/
  draws : Nat
deriving DecidableEq, Repr

/-- The machine stops with a fault: never. Every error of the spec is answered by a response and the core waits for the
next command (rule R60), and no encoding's behaviour is undefined (rule R27), so the type has no constructor. -/
inductive Fault
deriving DecidableEq, Repr

/-- The model gives an instruction no meaning. No arm of `exec` answers so and no meaning does. -/
inductive Refusal where
  /-- Raised by an arm of `exec` for an instruction without a meaning (none is left); safe, since nothing is claimed
  of a run that ends so. -/
  | notModelled (mnemonic : String)
deriving DecidableEq, Repr

/-- The state after reset for given values of the open parameters (rule R67): `TAG` is Finalized and the six other
elements hold whatever `o` names; no command has been sent and no response given. -/
def State.resetWith (o : OpenValues) : State where
  h := o.h
  t0 := o.t0
  t1 := o.t1
  buf := o.buf
  buflen := o.buflen
  outlen := o.outlen
  tag := .finalized
  inbox := []
  responses := []
  draws := 0

/-- The machine right after reset (rule R67), with the reset parameters the model names (assumption log 1). -/
def State.reset : State := State.resetWith Config.resetValues

end Sys2Proof.Machine
end

