-- ==== Sys2Proof/Machine/Flags.lean ====
section
/-! DEFINITION. The core has no condition codes: "no operation records a carry, overflow, zero or sign result anywhere"
(rule R12). What stands here is the numbering of the response status (rule R25), the numbering of the state tag (rule
R10), and the one effect of the Finalization Flag (rule R41), an operand that is never stored. -/

namespace Sys2Proof.Machine

/-- The number of a status (rule R25); 0x04 to 0xFF are never produced. -/
def Status.code : Status → BitVec 8
  | .ok => 0x00
  | .invalidParameter => 0x01
  | .invalidUsage => 0x02
  | .illegalCommand => 0x03

/-- The encoding of the tag (rule R10); value 3 never occurs and the encoding is not observable. -/
def Tag.code : Tag → BitVec 2
  | .fresh => 0
  | .active => 1
  | .finalized => 2

/-- Bitwise complement, `XOR64(x, 0xFFFFFFFFFFFFFFFF)` (rule R29). -/
def not64 (x : Word) : Word := x ^^^ 0xFFFFFFFFFFFFFFFF#64

/-- What the Finalization Flag does to work-vector word 14 (rules R37, R41): complement it when the flag is set,
"leaving it unchanged otherwise". -/
def finalizationWord (f : Bool) (x : Word) : Word := if f then not64 x else x

end Sys2Proof.Machine
end

