-- ==== Sys2Proof/Machine/Mixing.lean ====
section
/-! DEFINITION. The mixing function G and its primitives (spec/40_mixing_g.md). Internal: no command invokes it. -/

namespace Sys2Proof.Machine

/-- ADD64 (rule R28): addition modulo 2^64; the carry out of bit 63 is recorded nowhere. -/
def add64 (x y : Word) : Word := x + y

/-- XOR64 (rule R29). -/
def xor64 (x y : Word) : Word := x ^^^ y

/-- ROTR64 (rule R30): rotate right by `n`, `0 ≤ n ≤ 63`. -/
def rotr64 (x : Word) (n : Nat) : Word := x.rotateRight n

/-- An index quadruple of G (rule R31): four work-vector slots, pairwise distinct. G has no meaning on any other
(rule R33, spec/93_implementation_defined.md U7), so distinctness is part of the type. -/
structure Quadruple where
  a : Fin 16
  b : Fin 16
  c : Fin 16
  d : Fin 16
  /-- pairwise distinct -/
  distinct : [a, b, c, d].Nodup
deriving DecidableEq, Repr

/-- G (rule R31): the eight assignments in order, each reading what those before it left; rotations 32, 24, 16, 63. -/
def mixG (v : Vector Word 16) (q : Quadruple) (x y : Word) : Vector Word 16 :=
  let v := v.set q.a (add64 (add64 v[q.a] v[q.b]) x)
  let v := v.set q.d (rotr64 (xor64 v[q.d] v[q.a]) 32)
  let v := v.set q.c (add64 v[q.c] v[q.d])
  let v := v.set q.b (rotr64 (xor64 v[q.b] v[q.c]) 24)
  let v := v.set q.a (add64 (add64 v[q.a] v[q.b]) y)
  let v := v.set q.d (rotr64 (xor64 v[q.d] v[q.a]) 16)
  let v := v.set q.c (add64 v[q.c] v[q.d])
  let v := v.set q.b (rotr64 (xor64 v[q.b] v[q.c]) 63)
  v

/-- The four words G leaves in its slots. -/
structure Mixed where
  a : Word
  b : Word
  c : Word
  d : Word
deriving DecidableEq, Repr

/-- `G4`, the pure form of G (rule R32): four slot words and two message words to four slot words. -/
def mixG4 (a0 b0 c0 d0 x y : Word) : Mixed :=
  let a1 := a0 + b0 + x
  let d1 := rotr64 (xor64 d0 a1) 32
  let c1 := c0 + d1
  let b1 := rotr64 (xor64 b0 c1) 24
  let a2 := a1 + b1 + y
  let d2 := rotr64 (xor64 d1 a2) 16
  let c2 := c1 + d2
  let b2 := rotr64 (xor64 b1 c2) 63
  ⟨a2, b2, c2, d2⟩

end Sys2Proof.Machine
end

