-- ==== Sys2Proof/Machine/Operands.lean ====
section
/-! DEFINITION. How bytes become words and back: little-endian, the only byte order of the core (rules R13, R14), the
block a byte sequence fills (rules R44, R46), and the parameter block (rule R42). -/

namespace Sys2Proof.Machine

/-- `LE64(b0, ..., b7)` (rule R13): byte `k` is bits `8k+7 : 8k` of the word. -/
def le64 (b0 b1 b2 b3 b4 b5 b6 b7 : Byte) : Word := b7 ++ b6 ++ b5 ++ b4 ++ b3 ++ b2 ++ b1 ++ b0

/-- `bytesLE64(x)` (rule R14): the eight bytes of a word, least significant first. -/
def bytesLE64 (x : Word) : List Byte := (List.range 8).map fun k => x.extractLsb' (8 * k) 8

/-- LOADM (rule R13): the 128 bytes of a block as 16 little-endian words. -/
def loadM (b : Vector Byte 128) : Vector Word 16 :=
  Vector.ofFn fun i : Fin 16 =>
    le64 (b[8 * i.val]'(by omega)) (b[8 * i.val + 1]'(by omega)) (b[8 * i.val + 2]'(by omega))
      (b[8 * i.val + 3]'(by omega)) (b[8 * i.val + 4]'(by omega)) (b[8 * i.val + 5]'(by omega))
      (b[8 * i.val + 6]'(by omega)) (b[8 * i.val + 7]'(by omega))

/-- A byte sequence of at most 128 bytes as one block, zero-padded on the right (rules R46 for the key, R49 for a
chunk). -/
def blockOf (bytes : List Byte) : Vector Byte 128 := Vector.ofFn fun i : Fin 128 => bytes.getD i.val 0

/-- The parameter block (rule R42): 64 bytes; byte 0 is the digest length, byte 1 the key length, byte 2 the fanout and
byte 3 the depth, both 1, and every other byte is zero. -/
def parameterBlock (nn kk : Nat) : Vector Byte 64 :=
  Vector.ofFn fun i : Fin 64 => [BitVec.ofNat 8 nn, BitVec.ofNat 8 kk, 1#8, 1#8].getD i.val 0

/-- The parameter block read as eight little-endian words `p[0..7]` (rule R42). -/
def parameterWords (nn kk : Nat) : Vector Word 8 :=
  let p := parameterBlock nn kk
  Vector.ofFn fun i : Fin 8 =>
    le64 (p[8 * i.val]'(by omega)) (p[8 * i.val + 1]'(by omega)) (p[8 * i.val + 2]'(by omega))
      (p[8 * i.val + 3]'(by omega)) (p[8 * i.val + 4]'(by omega)) (p[8 * i.val + 5]'(by omega))
      (p[8 * i.val + 6]'(by omega)) (p[8 * i.val + 7]'(by omega))

end Sys2Proof.Machine
end

