-- ==== Sys2Proof/Machine/Compression.lean ====
section
/-! DEFINITION. The constants, the permutation schedule, the work vector and the compression function F
(spec/41_compression_f.md), and the initial hash state (rule R42). Internal: no command invokes F by itself. -/

namespace Sys2Proof.Machine

/-- `IV[0..7]` (rule R34), read-only (rule R4). -/
def iv : Vector Word 8 :=
  #v[0x6A09E667F3BCC908, 0xBB67AE8584CAA73B, 0x3C6EF372FE94F82B, 0xA54FF53A5F1D36F1,
     0x510E527FADE682D1, 0x9B05688C2B3E6C1F, 0x1F83D9ABFB41BD6B, 0x5BE0CD19137E2179]

/-- `SIGMA[0..9][0..15]`, the permutation schedule (rule R35), read-only (rule R4). -/
def sigma : Vector (Vector (Fin 16) 16) 10 :=
  #v[#v[0, 1, 2, 3, 4, 5, 6, 7, 8, 9, 10, 11, 12, 13, 14, 15],
     #v[14, 10, 4, 8, 9, 15, 13, 6, 1, 12, 0, 2, 11, 7, 5, 3],
     #v[11, 8, 12, 0, 5, 2, 15, 13, 10, 14, 3, 6, 7, 1, 9, 4],
     #v[7, 9, 3, 1, 13, 12, 11, 14, 2, 6, 5, 10, 4, 0, 15, 8],
     #v[9, 0, 5, 7, 2, 4, 10, 15, 14, 1, 11, 12, 6, 8, 3, 13],
     #v[2, 12, 6, 10, 0, 11, 8, 3, 4, 13, 7, 5, 15, 14, 1, 9],
     #v[12, 5, 1, 15, 14, 13, 4, 10, 0, 7, 6, 3, 9, 2, 8, 11],
     #v[13, 11, 7, 14, 12, 1, 3, 9, 5, 0, 15, 4, 8, 6, 2, 10],
     #v[6, 15, 14, 9, 11, 3, 0, 8, 12, 2, 13, 7, 1, 4, 10, 5],
     #v[10, 2, 8, 4, 7, 6, 1, 5, 15, 11, 9, 14, 3, 12, 13, 0]]

/-- The row of the schedule that round `r` uses: row `r mod 10` (rule R35). -/
def sigmaRow (r : Nat) : Vector (Fin 16) 16 := sigma[r % 10]'(Nat.mod_lt r (by decide))

/-- The index quadruples of the eight G invocations of a round (rule R36): four columns, then four diagonals. -/
def quadruples : Vector Quadruple 8 :=
  #v[⟨0, 4, 8, 12, by decide⟩, ⟨1, 5, 9, 13, by decide⟩, ⟨2, 6, 10, 14, by decide⟩, ⟨3, 7, 11, 15, by decide⟩,
     ⟨0, 5, 10, 15, by decide⟩, ⟨1, 6, 11, 12, by decide⟩, ⟨2, 7, 8, 13, by decide⟩, ⟨3, 4, 9, 14, by decide⟩]

/-- Invocation `j` of round `r` (rules R36, R38): G on quadruple `j` with message words `m[s[2j]]` and `m[s[2j+1]]`. -/
def mixStep (m : Vector Word 16) (r : Nat) (v : Vector Word 16) (j : Fin 8) : Vector Word 16 :=
  mixG v quadruples[j] (m[(sigmaRow r)[2 * j.val]]) (m[(sigmaRow r)[2 * j.val + 1]])

/-- ROUND (rule R38): the eight invocations, `j` increasing. -/
def round (m v : Vector Word 16) (r : Nat) : Vector Word 16 := (List.finRange 8).foldl (mixStep m r) v

/-- The work vector at the start of F (rule R37). -/
def workVector (h : Vector Word 8) (t0 t1 : Word) (f : Bool) : Vector Word 16 :=
  let v : Vector Word 16 := (h ++ iv).cast (by decide)
  let v := v.set 12 (xor64 v[12] t0)
  let v := v.set 13 (xor64 v[13] t1)
  v.set 14 (finalizationWord f v[14])

/-- The 12 rounds, `r` increasing (rule R38). -/
def rounds (m v : Vector Word 16) : Vector Word 16 := (List.range 12).foldl (round m) v

/-- F, the compression function (rule R39): a pure function of the state, the message words, the counter and the
flag. -/
def compressF (h : Vector Word 8) (m : Vector Word 16) (t0 t1 : Word) (f : Bool) : Vector Word 8 :=
  let v := rounds m (workVector h t0 t1 f)
  Vector.ofFn fun i : Fin 8 => xor64 (xor64 h[i] (v[i.val]'(by omega))) (v[i.val + 8]'(by omega))

/-- `InitialState(nn, kk)` (rule R42): `h[i] = IV[i] xor p[i]`. -/
def initialState (nn kk : Nat) : Vector Word 8 :=
  let p := parameterWords nn kk
  Vector.ofFn fun i : Fin 8 => xor64 iv[i] p[i]

end Sys2Proof.Machine
end

