-- ==== Sys2Proof/Machine/Digest.lean ====
section
/-! DEFINITION. The digest extractor (spec/43_digest_extractor.md). -/

namespace Sys2Proof.Machine

/-- SERIALIZE (rule R53): the state words in order, each as 8 little-endian bytes. -/
def serialize (h : Vector Word 8) : List Byte := h.toList.flatMap bytesLE64

/-- EXTRACT (rule R54): the first `nn` bytes of the serialization. -/
def extract (h : Vector Word 8) (nn : OutLen) : List Byte := (serialize h).take nn.val

end Sys2Proof.Machine
end

