-- ==== Sys2Proof/Machine/Ops.lean ====
section
/-! DEFINITION. The named operations over the state: the block processor's internal operations (spec/42_block_processor.md
section 1), answering a command, raising an error (this hardware's only exception), and taking the next event. -/

namespace Sys2Proof.Machine

/-- `respond(status, digest)` (rule R25): the command ends with this response. -/
def State.respond (s : State) (status : Status) (digest : List Byte) : State :=
  { s with responses := s.responses ++ [⟨status, digest⟩] }

/-- `raise E`, taking an exception (rule R60): the response is `(E, empty)` and no state element is written. Nothing is
saved and control goes nowhere; there is no return (rule R63): the next command is treated as if the refused one had
never been sent. -/
def State.raise (s : State) (e : Status) : State := s.respond e []

/-- The value `T = T0 + 2^64 · T1` of the Byte Counter (rule R7). -/
def State.counter (s : State) : Nat := s.t0.toNat + 2 ^ 64 * s.t1.toNat

/-- CTR_ADD (rule R43): the carry of the low word goes into the high word and nowhere else; both wrap. -/
def State.ctrAdd (s : State) (n : Nat) : State :=
  let sum := s.t0.toNat + n
  { s with t0 := BitVec.ofNat 64 sum, t1 := BitVec.ofNat 64 (s.t1.toNat + sum / 2 ^ 64) }

/-- COMPRESS (rule R45): the counter is advanced first, then F reads it with the 16 words of `BUF`. -/
def State.compress (s : State) (n : Nat) (f : Bool) : State :=
  let counted := s.ctrAdd n
  { counted with h := compressF s.h (loadM s.buf) counted.t0 counted.t1 f }

/-- PAD (rule R44): zero bytes at `BUFLEN..127`; `BUFLEN` is not changed. -/
def State.pad (s : State) : State :=
  { s with buf := s.buf.mapIdx fun i b => if i < s.buflen.val then b else 0x00 }

/-- `MemWrite(BUF, i, 1, b)` at the fill level `i`, which becomes `i + 1` (rules R16, R47). -/
def State.store (s : State) (i : Fin 128) (b : Byte) : State :=
  { s with buf := s.buf.set i b, buflen := i.succ }

/-- One payload byte of UPDATE (rule R47): a full buffer is compressed, flag false, only now that one more byte has
arrived; then the byte is stored at the fill level. -/
def State.absorb (s : State) (b : Byte) : State :=
  if room : s.buflen.val < 128 then s.store ⟨s.buflen.val, room⟩ b else (s.compress 128 false).store 0 b

/-- The state elements other than `TAG` set to given values: what a reset (rule R67) and the end of a computation (rule
R48) leave unspecified. -/
def State.withOpen (s : State) (o : OpenValues) : State :=
  { s with h := o.h, t0 := o.t0, t1 := o.t1, buf := o.buf, buflen := o.buflen, outlen := o.outlen }

/-- `TAG` becomes Finalized and the other six elements become unspecified: the next free value is drawn (assumption
log 2). -/
def State.discard (s : State) : State :=
  { s.withOpen (Config.openValues s.draws) with tag := .finalized, draws := s.draws + 1 }

/-- Reset between two commands (rules R67, R68): whatever the state was, `TAG` is Finalized and the rest unspecified. It
answers nothing: no command was sent. -/
def State.takeReset (s : State) : State := s.discard

/-- `TAG <- t` (rule R10). -/
def State.setTag (s : State) (t : Tag) : State := { s with tag := t }

/-- The next event of the outside world and the state without it; none when the host has sent nothing more. -/
def State.nextEvent (s : State) : Option (Event × State) :=
  match s.inbox with
  | [] => none
  | e :: rest => some (e, { s with inbox := rest })

/-- The host sends `e` ahead of everything it has not sent yet. -/
def State.send (s : State) (e : Event) : State := { s with inbox := e :: s.inbox }

end Sys2Proof.Machine
end

