-- ==== Sys2Proof/Machine/BlockProcessor.lean ====
section
/-! DEFINITION. The three commands of the core (spec/42_block_processor.md section 2): one meaning each. Every check that
can raise stands before the first write (rule R60). -/

namespace Sys2Proof.Machine

/-- The context a successful INIT builds (rule R46): every element of the state is written. A key is placed in the
buffer as a zero-padded block that counts 128 bytes; nothing is compressed. -/
def State.startContext (s : State) (nn : OutLen) (key : List Byte) : State :=
  { s with
    h := initialState nn.val key.length
    t0 := 0
    t1 := 0
    outlen := nn
    buf := blockOf key
    buflen := if key = [] then 0 else 128
    tag := .fresh }

/-- INIT (rule R46): the parameters are checked, in every tag; then the context is built anew. -/
def execInit (nn : Nat) (key : List Byte) (s : State) : Host.Outcome State Fault Refusal :=
  if range : 1 ≤ nn ∧ nn ≤ 64 then
    if key.length ≤ 64 then .next ((s.startContext ⟨nn, range.1, range.2⟩ key).respond .ok [])
    else .next (s.raise .invalidParameter)
  else .next (s.raise .invalidParameter)

/-- UPDATE (rule R47): refused on a Finalized context, a no-op on an empty payload; else every payload byte in index
order, and the context is Active. -/
def execUpdate (data : List Byte) (s : State) : Host.Outcome State Fault Refusal :=
  if s.tag = .finalized then .next (s.raise .invalidUsage)
  else if data = [] then .next (s.respond .ok [])
  else .next (((data.foldl State.absorb s).setTag .active).respond .ok [])

/-- The state FINAL reads the digest from (rule R48): the buffer padded, then compressed with the flag true and the
counter advanced by `BUFLEN`. -/
def State.lastBlock (s : State) : State := s.pad.compress s.buflen.val true

/-- FINAL (rule R48): refused on a Finalized context; else exactly one compression, the digest in the response, and
the context is gone. -/
def execFinal (s : State) : Host.Outcome State Fault Refusal :=
  if s.tag = .finalized then .next (s.raise .invalidUsage)
  else .next (s.lastBlock.discard.respond .ok (extract s.lastBlock.h s.lastBlock.outlen))

end Sys2Proof.Machine
end

