-- ==== Sys2Proof/Machine/Step.lean ====
section
/-! DEFINITION. One step: the next event of the outside world, handled to completion (rules R17, R18). -/

namespace Sys2Proof.Machine

/-- One step. With no event the core waits (rule R60); a reset is taken between commands (rule R68); a pair that is no
command is answered IllegalCommand before every other check (rules R59, R61); a command is executed. -/
def step (s : State) : Host.Outcome State Fault Refusal :=
  match s.nextEvent with
  | none => .next s
  | some (.reset, s') => .next s'.takeReset
  | some (.command c, s') =>
    match decode c with
    | .error _ => .next (s'.raise .illegalCommand)
    | .ok i => exec i s'

/-- The state in which the host sends, as its very next command, the header an opcode-table word stands for. -/
def State.withFetchWord (s : State) (nbits w : Nat) : State := s.send (.command (tableCommand nbits w))

end Sys2Proof.Machine
end

