-- ==== Sys2Proof/Machine/Assembly.lean ====
section
/-! DEFINITION. How the spec writes commands and digests down (rules R26, R56). Not a function of the core: the notation
of its assembler lines and of its vectors. -/

namespace Sys2Proof.Machine

/-- One lowercase hex digit (rule R56). -/
def hexDigit (n : BitVec 4) : Char :=
  ['0', '1', '2', '3', '4', '5', '6', '7', '8', '9', 'a', 'b', 'c', 'd', 'e', 'f'].getD n.toNat '0'

/-- A byte as two hex digits, high digit first (rule R56). -/
def hexByte (b : Byte) : List Char := [hexDigit (b.extractLsb' 4 4), hexDigit (b.extractLsb' 0 4)]

/-- A byte sequence as hex, bytes in index order (rules R26, R56). -/
def hex (bytes : List Byte) : List Char := bytes.flatMap hexByte

/-- A number below 1000 in decimal, as `nn` is written (spec/92_eei_decisions.md D26). -/
def decimal (n : Nat) : List Char :=
  let digit := fun k : Nat => hexDigit (BitVec.ofNat 4 (k % 10))
  if n < 10 then [digit n]
  else if n < 100 then [digit (n / 10), digit n]
  else [digit (n / 100), digit (n / 10), digit n]

/-- The key operand of an assembler line (rule R26): absent when there is no key. -/
def keyOperand (key : List Byte) : List Char := if key = [] then [] else ", key=".toList ++ hex key

/-- A payload operand (rule R26): the empty payload is written `-`. -/
def payloadOperand (data : List Byte) : List Char := if data = [] then ['-'] else hex data

/-- The assembler line of a command (rule R26), for `nn` of at most 255 (assumption log 15 for a larger one). -/
def assemblerLine : Instr → List Char
  | .init nn key => "INIT ".toList ++ decimal nn ++ keyOperand key
  | .update data => "UPDATE ".toList ++ payloadOperand data
  | .final => "FINAL".toList

/-- The line of the pseudo-instruction HASH (rule R26). DESIGN CHOICE, assumption log 14, two points: an empty input is
written `-` as for UPDATE (the rule gives `-` for UPDATE alone), and the key comes last, as in the rule's table
(spec/92_eei_decisions.md D8 and D26 put it before the input). -/
def hashLine (nn : Nat) (key input : List Byte) : List Char :=
  "HASH ".toList ++ decimal nn ++ ", ".toList ++ payloadOperand input ++ keyOperand key

end Sys2Proof.Machine
end

