-- ==== Sys2Proof/Machine/Hash.lean ====
section
/-! DEFINITION. The one-shot function `hash` of rule R49, written without the buffer, and the pseudo-instruction HASH of
rule R26, the commands that compute it. No command of the core is `hash` (rule R26): it is what the commands are held
to (rule R50). -/

namespace Sys2Proof.Machine

/-- The stream `S` (rules R8, R49): the zero-padded key block when there is a key, then the input. -/
def stream (key input : List Byte) : List Byte :=
  (if key = [] then [] else key ++ List.replicate (128 - key.length) 0) ++ input

/-- How many pieces of 128 bytes stand before the last one, which holds the remaining 1 to 128 bytes (or none, when the
stream is empty). -/
def fullCount (S : List Byte) : Nat := (S.length - 1) / 128

/-- Every chunk of the stream but the last (rule R49): 128 bytes each. -/
def fullChunks (S : List Byte) : List (List Byte) :=
  (List.range (fullCount S)).map fun i => (S.drop (128 * i)).take 128

/-- The last chunk of the stream (rule R49). -/
def lastChunk (S : List Byte) : List Byte := S.drop (128 * fullCount S)

/-- `words(b)` of rule R49, the chunk zero-padded to 128 bytes first. -/
def chunkWords (c : List Byte) : Vector Word 16 := loadM (blockOf c)

/-- F on one chunk at the counter value `t` (rule R49). -/
def hashChunk (h : Vector Word 8) (c : List Byte) (t : Nat) (f : Bool) : Vector Word 8 :=
  compressF h (chunkWords c) (BitVec.ofNat 64 (t % 2 ^ 64)) (BitVec.ofNat 64 (t / 2 ^ 64)) f

/-- One chunk that is not the last (rule R49): `t` advances by 128 first, then F with the flag false. -/
def hashStep (p : Vector Word 8 × Nat) (c : List Byte) : Vector Word 8 × Nat :=
  let t := (p.2 + 128) % 2 ^ 128
  (hashChunk p.1 c t false, t)

/-- The state and the counter after some chunks that are not the last. -/
def hashChunks (h : Vector Word 8) (cs : List (List Byte)) : Vector Word 8 × Nat := cs.foldl hashStep (h, 0)

/-- The state the digest is read from (rule R49): all chunks but the last, then the last with the flag true and `t`
advanced by its true length. -/
def hashState (nn kk : Nat) (S : List Byte) : Vector Word 8 :=
  let p := hashChunks (initialState nn kk) (fullChunks S)
  hashChunk p.1 (lastChunk S) ((p.2 + (lastChunk S).length) % 2 ^ 128) true

/-- `hash(input, nn, key)` (rule R49). -/
def hash (input : List Byte) (nn : Nat) (key : List Byte) : Except Status (List Byte) :=
  if range : 1 ≤ nn ∧ nn ≤ 64 then
    if key.length ≤ 64 then .ok (extract (hashState nn key.length (stream key input)) ⟨nn, range.1, range.2⟩)
    else .error .invalidParameter
  else .error .invalidParameter

/-- The pseudo-instruction HASH (rule R26): INIT, the input over UPDATE commands cut in any way, FINAL. -/
def hashInstrs (nn : Nat) (key : List Byte) (pieces : List (List Byte)) : List Instr :=
  .init nn key :: pieces.map Instr.update ++ [.final]

/-- The same as the host sends it: the expansion of a HASH line for `nn` of at most 255. For a larger `nn` the spec gives
no expansion and this one rests on the encoder's choice (DESIGN CHOICE, assumption log 15). -/
def hashCommands (nn : Nat) (key : List Byte) (pieces : List (List Byte)) : List Event :=
  (hashInstrs nn key pieces).map fun i => .command (encode i)

end Sys2Proof.Machine
end

