-- ==== Sys2Proof/Machine/Instances.lean ====
section
/-! DEFINITION. Several core instances side by side (rule R66): they share no state, have no identifiers of their own and
cannot signal one another. Here an instance is a position in a list. -/

namespace Sys2Proof.Machine

/-- One step of the instance at position `k`; the others do not move. A position without an instance has no step to
make. -/
def stepInstance (k : Nat) (cores : List State) : Host.Outcome (List State) Fault Refusal :=
  match cores[k]? with
  | none => .next cores
  | some s =>
    match step s with
    | .next t => .next (cores.set k t)
    | .fault r => .fault r
    | .refused r => .refused r

/-- Any interleaving of the instances' steps: the schedule names whose step comes next. -/
def runInstances : List Nat → List State → Host.Outcome (List State) Fault Refusal
  | [], cores => .next cores
  | k :: schedule, cores =>
    match stepInstance k cores with
    | .next cores' => runInstances schedule cores'
    | .fault r => .fault r
    | .refused r => .refused r

end Sys2Proof.Machine
end

