-- ==== Sys2Proof/Safety.lean ====
section
/-! DEFINITION. The terms in which claims about runs are stated: when a pair is a command, what a context owes the stream
it has accepted, the invariant every step keeps, and when two states cannot be told apart by the host. -/

namespace Sys2Proof.Machine

/-- `wellformed(HDR, P)`, the formula of rule R27. -/
def wellFormedPair (c : Command) : Prop :=
  (c.hdr.extractLsb' 16 16 = 0 ∧ c.hdr.extractLsb' 0 8 = 0x01#8) ∨
  (c.hdr.extractLsb' 16 16 = 0 ∧ c.hdr.extractLsb' 8 8 = 0 ∧ c.hdr.extractLsb' 0 8 = 0x02#8) ∨
  (c.hdr.extractLsb' 16 16 = 0 ∧ c.hdr.extractLsb' 8 8 = 0 ∧ c.hdr.extractLsb' 0 8 = 0x03#8 ∧ c.payload.length = 0)

/-- What is left of a state when the model's own record of the interface is set aside: rule R60's "state element". -/
def State.sameElements (s t : State) : Prop :=
  t.h = s.h ∧ t.t0 = s.t0 ∧ t.t1 = s.t1 ∧ t.buf = s.buf ∧ t.buflen = s.buflen ∧ t.outlen = s.outlen ∧ t.tag = s.tag

/-- A context that has accepted `input` under `key` since its INIT (rules R8, R47, R51): every chunk of the stream but the
last has been compressed, in order, flag false, counter 128, 256, ...; the last chunk stands in the buffer. -/
structure Accepted (key input : List Byte) (s : State) : Prop where
  /-- INIT accepted the key -/
  key_le : key.length ≤ 64
  /-- the chunks before the last are compressed -/
  h_eq : s.h = (hashChunks (initialState s.outlen.val key.length) (fullChunks (stream key input))).1
  /-- the counter has counted them -/
  counter_eq : s.counter = (hashChunks (initialState s.outlen.val key.length) (fullChunks (stream key input))).2
  /-- the fill level is the last chunk's length -/
  buflen_eq : s.buflen.val = (lastChunk (stream key input)).length
  /-- the last chunk waits in the buffer -/
  buf_eq : s.buf.toList.take s.buflen.val = lastChunk (stream key input)
  /-- Fresh means that no message byte has come (rule R10) -/
  fresh_iff : s.tag = .fresh ↔ input = []

/-- The invariant of the machine: while a computation is in progress, the context is one that has accepted some input
under some key. -/
def ContextInv (s : State) : Prop := s.tag ≠ .finalized → ∃ key input, Accepted key input s

/-- The host cannot tell two states apart: they are about to receive the same events, their tags agree, and while a
computation is in progress they agree on everything but the buffer bytes past the fill level (rule R8). What was
answered before, and which free values were drawn, may differ. -/
def Indistinguishable (s t : State) : Prop :=
  s.inbox = t.inbox ∧ s.tag = t.tag ∧
  (s.tag ≠ .finalized → s.h = t.h ∧ s.t0 = t.t0 ∧ s.t1 = t.t1 ∧ s.buflen = t.buflen ∧ s.outlen = t.outlen ∧
    s.buf.toList.take s.buflen.val = t.buf.toList.take s.buflen.val)

/-- A run is safe when its next step answers a next state: the core never stops. -/
def StepsOn (s : State) : Prop := ∃ t, step s = .next t

end Sys2Proof.Machine
end

