-- ==== Sys2Proof/Certificates/Slice0/Obligations.lean ====
section
/-! DEFINITION. The statements about the core, for the provers. Where a statement speaks of `inbox`, `responses` or `draws`
it speaks of the model's own record of the command interface and of the free values (assumption logs 2 and 3): "answers
with response r" reads `t.responses = s.responses ++ [r]`. -/

open Sys2Proof Sys2Proof.Machine

/-! ### Encoding (spec/30_encoding.md) -/

/-- The words of spec/95_test_vectors.md section 5 (decoder table), all fifteen rows, written out from the format of rule
R20. The clauses that hold for every payload cover the table's rows with none, with 64 or 65 bytes, and with any. -/
def Obligations.CommandWordsDecode : Prop :=
  (∀ P, decode ⟨0x00004001#32, P⟩ = .ok (.init 64 P)) ∧
  decode ⟨0x00000001#32, []⟩ = .ok (.init 0 []) ∧
  (∀ P, decode ⟨0x00002001#32, P⟩ = .ok (.init 32 P)) ∧
  (∀ P, decode ⟨0x0000FF01#32, P⟩ = .ok (.init 255 P)) ∧
  (∀ P, decode ⟨0x00000002#32, P⟩ = .ok (.update P)) ∧
  decode ⟨0x00000003#32, []⟩ = .ok .final ∧
  (∀ b P, decode ⟨0x00000003#32, b :: P⟩ = .error .payloadOnFinal) ∧
  (∀ P, decode ⟨0x00000102#32, P⟩ = .error .nnNotZero) ∧
  (∀ P, decode ⟨0x00004003#32, P⟩ = .error .nnNotZero) ∧
  (∀ P, decode ⟨0x00014001#32, P⟩ = .error .reservedBits) ∧
  (∀ P, decode ⟨0x80000002#32, P⟩ = .error .reservedBits) ∧
  (∀ P, decode ⟨0x00000000#32, P⟩ = .error .reservedOpcode) ∧
  (∀ P, decode ⟨0x00000004#32, P⟩ = .error .reservedOpcode) ∧
  (∀ P, decode ⟨0x000000FF#32, P⟩ = .error .reservedOpcode)

/-- Encoding and decoding agree both ways: a well-formed instruction is decoded from its encoding, and a pair that
decodes is the one encoding of the well-formed instruction it decodes to. -/
def Obligations.DecodeAndEncodeAreInverse : Prop :=
  (∀ i : Instr, i.wellFormed = true → decode (encode i) = .ok i) ∧
  (∀ (c : Command) (i : Instr), decode c = .ok i → i.wellFormed = true ∧ encode i = c)

/-- Rules R21, R22, R23: a header that agrees with a row's match under its mask decodes as that row's instruction, INIT
with `NN = HDR[15:8]` and the payload as its key; no header matches two rows; and INIT itself, not the decoder, refuses
an output length outside 1 to 64 and a key of more than 64 bytes. -/
def Obligations.OpcodeRowsDecode : Prop :=
  (∀ (hdr : Header) (P : List Byte), hdr &&& 0xFFFF00FF#32 = 0x00000001#32 →
    decode ⟨hdr, P⟩ = .ok (.init (hdr.extractLsb' 8 8).toNat P)) ∧
  (∀ (hdr : Header) (P : List Byte), hdr &&& 0xFFFFFFFF#32 = 0x00000002#32 → decode ⟨hdr, P⟩ = .ok (.update P)) ∧
  (∀ hdr : Header, hdr &&& 0xFFFFFFFF#32 = 0x00000003#32 →
    decode ⟨hdr, []⟩ = .ok .final ∧ ∀ P, P ≠ [] → decode ⟨hdr, P⟩ = .error .payloadOnFinal) ∧
  (∀ (hdr : Header) (r r' : OpcodeRow), r ∈ opcodeRows → r' ∈ opcodeRows → r.hits hdr = true → r'.hits hdr = true →
    r = r') ∧
  (∀ (nn : Nat) (P : List Byte) (s : State), (nn < 1 ∨ 64 < nn ∨ 64 < P.length) →
    exec (.init nn P) s = .next (s.raise .invalidParameter))

/-- Rules R27 and R59: a pair decodes exactly when it is well formed; any other pair is answered IllegalCommand (0x03) with
an empty digest, in every tag, and no state element changes. -/
def Obligations.IllegalPairsAreRefused : Prop :=
  (∀ c : Command, (∃ i, decode c = .ok i) ↔ wellFormedPair c) ∧
  Status.illegalCommand.code = 0x03#8 ∧
  ∀ (s : State) (c : Command) (rest : List Event), s.inbox = .command c :: rest → ¬ wellFormedPair c →
    ∃ t, step s = .next t ∧ t.responses = s.responses ++ [⟨.illegalCommand, []⟩] ∧ s.sameElements t ∧
      t.inbox = rest ∧ t.draws = s.draws

/-! ### Stepping (rules R17, R18) -/

/-- A step runs the decoded command: the next pair the host sent, when it decodes to `i`, is executed on the state
without it, and nothing is added around it. In particular every well-formed instruction runs when its encoding is
sent. -/
def Obligations.StepRunsTheDecodedCommand : Prop :=
  (∀ (s : State) (c : Command) (rest : List Event) (i : Instr), s.inbox = .command c :: rest → decode c = .ok i →
    step s = exec i { s with inbox := rest }) ∧
  (∀ (s : State) (i : Instr), i.wellFormed = true → step (s.send (.command (encode i))) = exec i s)

/-- The core waits when the host has sent nothing (rule R60, "simply waits for the next command"; the model's own idle
step, assumption log 4). Reset between two commands (rule R68): whatever the state was, `TAG` is Finalized afterwards. That
the reset answers nothing and that the events after it stay is the model's choice (assumption log 10). -/
def Obligations.WaitingAndReset : Prop :=
  (∀ s : State, s.inbox = [] → step s = .next s) ∧
  (∀ (s : State) (rest : List Event), s.inbox = .reset :: rest →
    ∃ t, step s = .next t ∧ t.tag = .finalized ∧ t.inbox = rest ∧ t.responses = s.responses)

/-- Rule R67: after reset `TAG` is Finalized; whatever the open parameters are, UPDATE and FINAL are refused with
InvalidUsage and a successful INIT gives one and the same state. The reset values the model names (assumption log 1) are
one instance. -/
def Obligations.ResetAcceptsOnlyInit : Prop :=
  (∀ o : OpenValues, (State.resetWith o).tag = .finalized ∧ (State.resetWith o).responses = []) ∧
  State.reset.tag = .finalized ∧
  (∀ (o : OpenValues) (data : List Byte),
    exec (.update data) (State.resetWith o) = .next ((State.resetWith o).raise .invalidUsage) ∧
    exec .final (State.resetWith o) = .next ((State.resetWith o).raise .invalidUsage)) ∧
  (∀ (o o' : OpenValues) (nn : Nat) (key : List Byte), 1 ≤ nn → nn ≤ 64 → key.length ≤ 64 →
    ∃ t, exec (.init nn key) (State.resetWith o) = .next t ∧ exec (.init nn key) (State.resetWith o') = .next t ∧
      t.tag = .fresh)

/-! ### The mixing function (spec/40_mixing_g.md) -/

/-- Rule R28: ADD64 is addition modulo 2^64, commutative and associative, so that a three-operand sum wraps once. -/
def Obligations.Add64IsModular : Prop :=
  (∀ x y : Word, (add64 x y).toNat = (x.toNat + y.toNat) % 2 ^ 64) ∧
  (∀ x y : Word, add64 x y = add64 y x) ∧
  (∀ x y z : Word, add64 (add64 x y) z = add64 x (add64 y z)) ∧
  (∀ x y z : Word, (add64 (add64 x y) z).toNat = (x.toNat + y.toNat + z.toNat) % 2 ^ 64)

/-- Rule R29: bit `i` of XOR64 is `x[i] + y[i] mod 2`, and NOT64 complements every bit. -/
def Obligations.Xor64IsBitwise : Prop :=
  (∀ (x y : Word) (i : Nat), i < 64 →
    ((xor64 x y).getLsbD i).toNat = ((x.getLsbD i).toNat + (y.getLsbD i).toNat) % 2) ∧
  (∀ (x : Word) (i : Nat), i < 64 → (not64 x).getLsbD i = !(x.getLsbD i)) ∧
  (∀ x : Word, not64 x = xor64 x 0xFFFFFFFFFFFFFFFF#64)

/-- Rule R30: for `0 ≤ n ≤ 63`, bit `i` of ROTR64(x, n) is bit `(i + n) mod 64` of `x`; and the formula by shifts of the
unbounded integer. -/
def Obligations.Rotr64RotatesRight : Prop :=
  ∀ (x : Word) (n : Nat), n ≤ 63 →
    (∀ i, i < 64 → (rotr64 x n).getLsbD i = x.getLsbD ((i + n) % 64)) ∧
    (1 ≤ n → (rotr64 x n).toNat = ((x.toNat >>> n) + (x.toNat <<< (64 - n))) % 2 ^ 64) ∧
    (n = 0 → rotr64 x n = x)

/-- Rules R31 and R32: the eight assignments of G leave `(a2, b2, c2, d2)` in the four slots, computed from the six words
it reads, and the other twelve words of the work vector as they were. Which slot each assignment writes is what the spec
marks "[from general knowledge, not in source]" (assumption log 7). -/
def Obligations.MixIsG4OnItsSlots : Prop :=
  ∀ (v : Vector Word 16) (q : Quadruple) (x y : Word),
    let a1 := v[q.a] + v[q.b] + x
    let d1 := rotr64 (v[q.d] ^^^ a1) 32
    let c1 := v[q.c] + d1
    let b1 := rotr64 (v[q.b] ^^^ c1) 24
    let a2 := a1 + b1 + y
    let d2 := rotr64 (d1 ^^^ a2) 16
    let c2 := c1 + d2
    let b2 := rotr64 (b1 ^^^ c2) 63
    mixG4 v[q.a] v[q.b] v[q.c] v[q.d] x y = ⟨a2, b2, c2, d2⟩ ∧
    (mixG v q x y)[q.a] = a2 ∧ (mixG v q x y)[q.b] = b2 ∧ (mixG v q x y)[q.c] = c2 ∧ (mixG v q x y)[q.d] = d2 ∧
    ∀ k : Fin 16, k ∉ [q.a, q.b, q.c, q.d] → (mixG v q x y)[k] = v[k]

/-- Rule R32: two invocations of G on disjoint quadruples commute. -/
def Obligations.DisjointMixesCommute : Prop :=
  ∀ (v : Vector Word 16) (q r : Quadruple) (x y x' y' : Word), List.Disjoint [q.a, q.b, q.c, q.d] [r.a, r.b, r.c, r.d] →
    mixG (mixG v q x y) r x' y' = mixG (mixG v r x' y') q x y

/-! ### The compression function (spec/41_compression_f.md) -/

/-- Rules R35 and R36: every row of the schedule is a permutation of the 16 message-word indices, the ten rows are
pairwise different and round `r` uses row `r mod 10`; every round uses each message word exactly once; the four column
quadruples are pairwise disjoint and so are the four diagonal ones, and each group covers all 16 slots. The table's rows and the
quadruples are what the spec marks "[from general knowledge, not in source]" (assumption log 7). -/
def Obligations.ScheduleIsTenPermutations : Prop :=
  (∀ r : Fin 10, sigma[r].toList.Perm (List.finRange 16)) ∧
  (∀ r r' : Fin 10, sigma[r] = sigma[r'] → r = r') ∧
  (∀ (r : Nat) (row : Fin 10), row.val = r % 10 → sigmaRow r = sigma[row]) ∧
  (∀ r : Nat, ((List.finRange 8).flatMap fun j : Fin 8 =>
    [(sigmaRow r)[2 * j.val], (sigmaRow r)[2 * j.val + 1]]).Perm (List.finRange 16)) ∧
  (∀ i j : Fin 8, i.val / 4 = j.val / 4 → i ≠ j → ∀ k : Fin 16,
    k ∈ [quadruples[i].a, quadruples[i].b, quadruples[i].c, quadruples[i].d] →
    k ∉ [quadruples[j].a, quadruples[j].b, quadruples[j].c, quadruples[j].d]) ∧
  (∀ k : Fin 16, ∀ g : Fin 2, ∃ j : Fin 8, j.val / 4 = g.val ∧
    k ∈ [quadruples[j].a, quadruples[j].b, quadruples[j].c, quadruples[j].d])

/-- Rule R37: the sixteen words of the work vector at the start of F. -/
def Obligations.WorkVectorAtStart : Prop :=
  ∀ (h : Vector Word 8) (t0 t1 : Word) (f : Bool),
    (∀ i : Fin 8, (workVector h t0 t1 f)[i.val]'(by omega) = h[i]) ∧
    (∀ i : Fin 4, (workVector h t0 t1 f)[i.val + 8]'(by omega) = iv[i.val]'(by omega)) ∧
    (workVector h t0 t1 f)[12] = iv[4] ^^^ t0 ∧
    (workVector h t0 t1 f)[13] = iv[5] ^^^ t1 ∧
    (workVector h t0 t1 f)[14] = (if f then iv[6] ^^^ 0xFFFFFFFFFFFFFFFF#64 else iv[6]) ∧
    (workVector h t0 t1 f)[15] = iv[7]

/-- From rules R36, R38 and R39: F runs 96 invocations of G, invocation `k` being `j = k mod 8` of round `r = floor(k / 8)` with
message words `m[s[2j]]` and `m[s[2j+1]]`, and feeds forward `h'[i] = h[i] xor v[i] xor v[i+8]`. The quadruples and which
message words invocation `j` takes are what the spec marks "[from general knowledge, not in source]" (assumption log 7). -/
def Obligations.CompressionIsNinetySixMixes : Prop :=
  ∀ (h : Vector Word 8) (m : Vector Word 16) (t0 t1 : Word) (f : Bool) (v : Vector Word 16),
    v = (List.range 96).foldl
      (fun v k => mixG v (quadruples[k % 8]'(Nat.mod_lt k (by decide)))
        m[(sigmaRow (k / 8))[2 * (k % 8)]'(by omega)] m[(sigmaRow (k / 8))[2 * (k % 8) + 1]'(by omega)])
      (workVector h t0 t1 f) →
    ∀ i : Fin 8, (compressF h m t0 t1 f)[i] = h[i] ^^^ v[i.val]'(by omega) ^^^ v[i.val + 8]'(by omega)

/-- Rule R38 (spec/93_implementation_defined.md U17): the four column invocations of a round give the same in any order, and
so do the four diagonal ones, as long as the columns come first. -/
def Obligations.OrderInsideAGroupIsFree : Prop :=
  ∀ (m v : Vector Word 16) (r : Nat) (columns diagonals : List (Fin 8)), columns.Perm [0, 1, 2, 3] →
    diagonals.Perm [4, 5, 6, 7] → (columns ++ diagonals).foldl (mixStep m r) v = round m v r

/-! ### Bytes and words (rules R13, R14, R42, R53, R54) -/

/-- Rule R13: word `i` of a block is the little-endian value of its bytes `8i` to `8i + 7`. -/
def Obligations.BlockWordsAreLittleEndian : Prop :=
  ∀ (b : Vector Byte 128) (i : Fin 16), ((loadM b)[i]).toNat =
    (b[8 * i.val]'(by omega)).toNat + 2 ^ 8 * (b[8 * i.val + 1]'(by omega)).toNat +
    2 ^ 16 * (b[8 * i.val + 2]'(by omega)).toNat + 2 ^ 24 * (b[8 * i.val + 3]'(by omega)).toNat +
    2 ^ 32 * (b[8 * i.val + 4]'(by omega)).toNat + 2 ^ 40 * (b[8 * i.val + 5]'(by omega)).toNat +
    2 ^ 48 * (b[8 * i.val + 6]'(by omega)).toNat + 2 ^ 56 * (b[8 * i.val + 7]'(by omega)).toNat

/-- Rule R14: `bytesLE64` gives the bytes of a word least significant first, and `LE64` is its inverse. -/
def Obligations.WordBytesRoundTrip : Prop :=
  (∀ x : Word, bytesLE64 x = [x.extractLsb' 0 8, x.extractLsb' 8 8, x.extractLsb' 16 8, x.extractLsb' 24 8,
    x.extractLsb' 32 8, x.extractLsb' 40 8, x.extractLsb' 48 8, x.extractLsb' 56 8]) ∧
  (∀ b0 b1 b2 b3 b4 b5 b6 b7 : Byte,
    bytesLE64 (le64 b0 b1 b2 b3 b4 b5 b6 b7) = [b0, b1, b2, b3, b4, b5, b6, b7]) ∧
  (∀ x y : Word, bytesLE64 x = bytesLE64 y → x = y)

/-- Rule R42: the parameter word enters `H[0]` only; `h[1..7]` are `IV[1..7]`. The layout is what the spec marks "[from
general knowledge, not in source]" (assumption log 7). -/
def Obligations.InitialStateFoldsParameters : Prop :=
  ∀ nn kk : Nat, 1 ≤ nn → nn ≤ 64 → kk ≤ 64 →
    (initialState nn kk)[0] = iv[0] ^^^ BitVec.ofNat 64 (nn + 2 ^ 8 * kk + 2 ^ 16 * 1 + 2 ^ 24 * 1) ∧
    ∀ i : Fin 8, 1 ≤ i.val → (initialState nn kk)[i] = iv[i]

/-- Rule R53: SERIALIZE gives 64 bytes; byte `k` is `(h[floor(k / 8)] >> (8 · (k mod 8))) mod 256`. -/
def Obligations.SerializeGivesStateBytes : Prop :=
  ∀ h : Vector Word 8, (serialize h).length = 64 ∧
    ∀ k : Fin 64, (serialize h)[k.val]? =
      some (BitVec.ofNat 8 (((h[k.val / 8]'(by omega)).toNat >>> (8 * (k.val % 8))) % 256))

/-- Rules R54 and R55: EXTRACT gives exactly `nn` bytes, the first ones of the serialization. -/
def Obligations.ExtractTruncatesTheState : Prop :=
  ∀ (h : Vector Word 8) (nn : OutLen), (extract h nn).length = nn.val ∧
    (∀ k, k < nn.val → (extract h nn)[k]? = (serialize h)[k]?) ∧ extract h nn <+: serialize h

/-! ### The block processor's operations (spec/42_block_processor.md section 1) -/

/-- Rule R43: CTR_ADD is `T <- (T + n) mod 2^128`, the carry of the low word going into the high word and nowhere else. -/
def Obligations.CounterAddsAndWraps : Prop :=
  ∀ (s : State) (n : Nat), n ≤ 128 →
    (s.ctrAdd n).counter = (s.counter + n) % 2 ^ 128 ∧
    (s.ctrAdd n).t0.toNat = (s.t0.toNat + n) % 2 ^ 64 ∧
    (s.ctrAdd n).t1.toNat = (s.t1.toNat + (s.t0.toNat + n) / 2 ^ 64) % 2 ^ 64 ∧
    (s.t0.toNat + n) / 2 ^ 64 ≤ 1 ∧
    s.ctrAdd n = { s with t0 := (s.ctrAdd n).t0, t1 := (s.ctrAdd n).t1 }

/-- Rule R44: PAD zeroes `BUF[BUFLEN..127]` and changes nothing else. -/
def Obligations.PadZeroesTheTail : Prop :=
  ∀ s : State,
    (∀ i : Fin 128, (s.pad.buf)[i] = if s.buflen.val ≤ i.val then 0x00#8 else s.buf[i]) ∧
    s.pad = { s with buf := s.pad.buf }

/-- Rule R45: COMPRESS advances the counter first; F reads the advanced counter and the 16 words of `BUF`; only `T0`, `T1`
and `H` are written. -/
def Obligations.CompressReadsTheAdvancedCounter : Prop :=
  ∀ (s : State) (n : Nat) (f : Bool), n ≤ 128 →
    (s.compress n f).counter = (s.counter + n) % 2 ^ 128 ∧
    (s.compress n f).h = compressF s.h (loadM s.buf) (BitVec.ofNat 64 ((s.counter + n) % 2 ^ 128 % 2 ^ 64))
      (BitVec.ofNat 64 ((s.counter + n) % 2 ^ 128 / 2 ^ 64)) f ∧
    s.compress n f =
      { s with h := (s.compress n f).h, t0 := (s.compress n f).t0, t1 := (s.compress n f).t1 }

/-! ### INIT (rule R46) -/

/-- Rule R46, INIT completes: for legal parameters, in every tag, every state element is written as the rule says and the
response is OK. The key, when there is one, stands in the buffer zero-padded and counts 128 bytes; nothing is
compressed. For any other parameters the answer is InvalidParameter and nothing is written. -/
def Obligations.InitBuildsTheContext : Prop :=
  (∀ (nn : Nat) (key : List Byte) (s : State), 1 ≤ nn → nn ≤ 64 → key.length ≤ 64 →
    ∃ t, exec (.init nn key) s = .next t ∧
      t.h = initialState nn key.length ∧ t.t0 = 0 ∧ t.t1 = 0 ∧ t.outlen.val = nn ∧
      (∀ i : Fin 128, t.buf[i] = if inKey : i.val < key.length then key[i.val] else 0x00#8) ∧
      t.buflen.val = (if 0 < key.length then 128 else 0) ∧ t.tag = .fresh ∧
      t.responses = s.responses ++ [⟨.ok, []⟩] ∧ t.inbox = s.inbox ∧ t.draws = s.draws) ∧
  (∀ (nn : Nat) (key : List Byte) (s : State), (nn < 1 ∨ 64 < nn ∨ 64 < key.length) →
    ∃ t, exec (.init nn key) s = .next t ∧ s.sameElements t ∧
      t.responses = s.responses ++ [⟨.invalidParameter, []⟩] ∧ t.inbox = s.inbox ∧ t.draws = s.draws)

/-- Rule R57: InvalidParameter (0x01) is raised by INIT only, exactly when `nn < 1` or `nn > 64` or `|P| > 64`; UPDATE and
FINAL never raise it; the one-shot `hash` fails with it on the same parameters. -/
def Obligations.InvalidParameterExactly : Prop :=
  Status.invalidParameter.code = 0x01#8 ∧
  (∀ (nn : Nat) (key : List Byte) (s t : State), exec (.init nn key) s = .next t →
    (t.responses = s.responses ++ [⟨.invalidParameter, []⟩] ↔ (nn < 1 ∨ 64 < nn ∨ 64 < key.length))) ∧
  (∀ (data : List Byte) (s t : State) (D : List Byte), exec (.update data) s = .next t →
    t.responses ≠ s.responses ++ [⟨.invalidParameter, D⟩]) ∧
  (∀ (s t : State) (D : List Byte), exec .final s = .next t →
    t.responses ≠ s.responses ++ [⟨.invalidParameter, D⟩]) ∧
  (∀ (input key : List Byte) (nn : Nat),
    hash input nn key = .error .invalidParameter ↔ (nn < 1 ∨ 64 < nn ∨ 64 < key.length))

/-- Rule R17: repeating INIT with the same header and payload is idempotent. -/
def Obligations.RepeatedInitWritesTheSame : Prop :=
  ∀ (nn : Nat) (key : List Byte) (s t u : State), exec (.init nn key) s = .next t → exec (.init nn key) t = .next u →
    t.sameElements u

/-! ### UPDATE (rule R47) -/

/-- Rule R47, UPDATE completes: on a context that is not Finalized a non-empty payload makes the context Active and is
answered OK. The compressions it runs are `ceil((BUFLEN + |P|) / 128) - 1`, each advancing the counter by 128; the fill
level ends in 1 to 128. `OUTLEN` does not change. -/
def Obligations.UpdateCompletes : Prop :=
  ∀ (data : List Byte) (s : State), s.tag ≠ .finalized → data ≠ [] →
    ∃ t, exec (.update data) s = .next t ∧ t.tag = .active ∧
      t.counter = (s.counter + 128 * ((s.buflen.val + data.length + 127) / 128 - 1)) % 2 ^ 128 ∧
      t.buflen.val = s.buflen.val + data.length - 128 * ((s.buflen.val + data.length + 127) / 128 - 1) ∧
      1 ≤ t.buflen.val ∧ t.buflen.val ≤ 128 ∧
      (s.buflen.val + data.length ≤ 128 → t.h = s.h ∧ t.t0 = s.t0 ∧ t.t1 = s.t1) ∧
      t.outlen = s.outlen ∧ t.responses = s.responses ++ [⟨.ok, []⟩] ∧ t.inbox = s.inbox ∧ t.draws = s.draws

/-- Rule R47: a zero-length UPDATE on a Fresh or Active context is answered OK and changes no state element, `TAG`
included. -/
def Obligations.EmptyUpdateChangesNothing : Prop :=
  ∀ s : State, s.tag ≠ .finalized →
    ∃ t, exec (.update []) s = .next t ∧ s.sameElements t ∧ t.responses = s.responses ++ [⟨.ok, []⟩] ∧
      t.inbox = s.inbox ∧ t.draws = s.draws

/-- Rule R47, the buffer: payload byte `k` goes to slot `(BUFLEN + k) mod 128`, where it stays unless a later payload byte
goes to the same slot; every slot no payload byte goes to holds what it held (for slots at and above the fill level this is
read from the rule's pseudocode, assumption log 11). -/
def Obligations.UpdateStoresPayloadBytes : Prop :=
  ∀ (data : List Byte) (s t : State), s.tag ≠ .finalized → exec (.update data) s = .next t →
    (∀ (k : Nat) (inData : k < data.length), data.length ≤ k + 128 →
      t.buf[(s.buflen.val + k) % 128]'(Nat.mod_lt _ (by decide)) = data[k]) ∧
    (∀ i : Fin 128, (∀ k, k < data.length → (s.buflen.val + k) % 128 ≠ i.val) → t.buf[i] = s.buf[i])

/-- Rule R47, the block-wise form: the bytes waiting in the buffer followed by the payload are cut into pieces of 128
bytes; every piece but the last is compressed with the flag false, the counter advanced by 128 before each; the last piece
waits in the buffer. -/
def Obligations.UpdateCompressesAllButTheLastPiece : Prop :=
  ∀ (data : List Byte) (s : State), s.tag ≠ .finalized → data ≠ [] →
    ∃ t, exec (.update data) s = .next t ∧
      (t.h, t.counter) = (fullChunks (s.buf.toList.take s.buflen.val ++ data)).foldl hashStep (s.h, s.counter) ∧
      t.buf.toList.take t.buflen.val = lastChunk (s.buf.toList.take s.buflen.val ++ data)

/-- From rule R47 (rule R15 asks it of the result): the boundary between two payloads leaves no trace in the state. For the
buffer bytes at and above the fill level this is read from the pseudocode of rule R47 (assumption log 11). -/
def Obligations.SplitUpdatesAgree : Prop :=
  ∀ (P Q : List Byte) (s t u w : State), s.tag ≠ .finalized → exec (.update P) s = .next t →
    exec (.update Q) t = .next u → exec (.update (P ++ Q)) s = .next w → u.sameElements w

/-! ### FINAL (rule R48) -/

/-- Rule R48, FINAL completes: on a context that is not Finalized it runs one compression of the waiting bytes, zero-padded,
with the flag true and the counter advanced by `BUFLEN`, answers OK with the first `OUTLEN` bytes of the resulting state,
and leaves `TAG` Finalized. What the other elements hold afterwards is left open. On a Finalized context the answer is
InvalidUsage and nothing is written. -/
def Obligations.FinalAnswersTheDigest : Prop :=
  (∀ s : State, s.tag ≠ .finalized →
    ∃ t, exec .final s = .next t ∧ t.tag = .finalized ∧
      t.responses = s.responses ++ [⟨.ok, extract (hashChunk s.h (s.buf.toList.take s.buflen.val)
        ((s.counter + s.buflen.val) % 2 ^ 128) true) s.outlen⟩] ∧
      t.inbox = s.inbox ∧ t.draws = s.draws + 1) ∧
  (∀ s : State, s.tag = .finalized →
    ∃ t, exec .final s = .next t ∧ s.sameElements t ∧ t.responses = s.responses ++ [⟨.invalidUsage, []⟩] ∧
      t.inbox = s.inbox ∧ t.draws = s.draws)

/-- Rule R58: InvalidUsage (0x02) is raised by UPDATE (whatever its payload) and FINAL, exactly when `TAG` is Finalized;
INIT never raises it. -/
def Obligations.InvalidUsageExactly : Prop :=
  Status.invalidUsage.code = 0x02#8 ∧
  (∀ (data : List Byte) (s t : State), exec (.update data) s = .next t →
    (t.responses = s.responses ++ [⟨.invalidUsage, []⟩] ↔ s.tag = .finalized)) ∧
  (∀ s t : State, exec .final s = .next t →
    (t.responses = s.responses ++ [⟨.invalidUsage, []⟩] ↔ s.tag = .finalized)) ∧
  (∀ (nn : Nat) (key : List Byte) (s t : State) (D : List Byte), exec (.init nn key) s = .next t →
    t.responses ≠ s.responses ++ [⟨.invalidUsage, D⟩])

/-- Rule R73: the digest exists only in the response of its FINAL: afterwards, until an INIT, FINAL and every UPDATE are
refused with no digest. -/
def Obligations.NoSecondDigest : Prop :=
  ∀ s t : State, exec .final s = .next t →
    exec .final t = .next (t.raise .invalidUsage) ∧
    ∀ data : List Byte, exec (.update data) t = .next (t.raise .invalidUsage)

/-! ### Every command (rules R9, R10, R25, R60 to R63) -/

/-- Rules R27 and R75: every step answers a next state: the core neither stops nor refuses. -/
def Obligations.EveryStepAnswers : Prop := ∀ s : State, StepsOn s

/-- Rule R25: every command is answered by exactly one response; only a successful FINAL carries a digest, of `OUTLEN`
bytes; a status other than OK means that no state element changed; the status numbers are 0 to 3. -/
def Obligations.OneResponsePerCommand : Prop :=
  (Status.ok.code = 0x00#8 ∧ Status.invalidParameter.code = 0x01#8 ∧ Status.invalidUsage.code = 0x02#8 ∧
    Status.illegalCommand.code = 0x03#8) ∧
  ∀ (s : State) (c : Command) (rest : List Event), s.inbox = .command c :: rest →
    ∃ t r, step s = .next t ∧ t.inbox = rest ∧ t.responses = s.responses ++ [r] ∧
      (r.status ≠ .ok → r.digest = [] ∧ s.sameElements t) ∧
      (decode c = .ok .final → r.status = .ok → r.digest.length = s.outlen.val) ∧
      (decode c ≠ .ok .final → r.digest = [])

/-- Rule R60: a refused command writes no state element; the state after it is the state before it but for the command
taken and the response given. -/
def Obligations.RefusedCommandsChangeNothing : Prop :=
  ∀ (s t : State) (c : Command) (rest : List Event) (r : Response), s.inbox = .command c :: rest → step s = .next t →
    t.responses = s.responses ++ [r] → r.status ≠ .ok →
    r.digest = [] ∧ t = { s with inbox := rest, responses := s.responses ++ [⟨r.status, []⟩] }

/-- Rule R61: the checks are made in order and the first that fails decides the status: well-formedness, then the tag for
UPDATE and FINAL and the parameters for INIT; a command that passes them is answered OK. -/
def Obligations.FirstFailedCheckDecides : Prop :=
  ∀ (s : State) (c : Command) (rest : List Event), s.inbox = .command c :: rest →
    ∃ t r, step s = .next t ∧ t.responses = s.responses ++ [r] ∧
      (¬ wellFormedPair c → r.status = .illegalCommand) ∧
      (∀ data, decode c = .ok (.update data) →
        r.status = if s.tag = .finalized then .invalidUsage else .ok) ∧
      (decode c = .ok .final → r.status = if s.tag = .finalized then .invalidUsage else .ok) ∧
      (∀ nn key, decode c = .ok (.init nn key) →
        r.status = if 1 ≤ nn ∧ nn ≤ 64 ∧ key.length ≤ 64 then .ok else .invalidParameter)

/-- Rule R10: the transitions of the state tag, row by row, and its encoding. -/
def Obligations.TagTransitions : Prop :=
  (Tag.fresh.code = 0#2 ∧ Tag.active.code = 1#2 ∧ Tag.finalized.code = 2#2) ∧
  ∀ s t : State, step s = .next t →
    (∀ rest, s.inbox = .reset :: rest → t.tag = .finalized) ∧
    (∀ c rest, s.inbox = .command c :: rest →
      (∀ nn key, decode c = .ok (.init nn key) →
        t.tag = if 1 ≤ nn ∧ nn ≤ 64 ∧ key.length ≤ 64 then .fresh else s.tag) ∧
      (∀ data, decode c = .ok (.update data) → s.tag = .fresh → t.tag = if data = [] then .fresh else .active) ∧
      (∀ data, decode c = .ok (.update data) → s.tag = .active → t.tag = .active) ∧
      (decode c = .ok .final → t.tag = .finalized) ∧
      (∀ data, decode c = .ok (.update data) → s.tag = .finalized → t.tag = .finalized) ∧
      (∀ e, decode c = .error e → t.tag = s.tag))

/-- Rule R9: only a successful INIT writes `OUTLEN`, and it writes the requested length; nothing else changes it while a
computation is in progress. -/
def Obligations.OutputLengthIsFixedByInit : Prop :=
  (∀ (nn : Nat) (key : List Byte) (s t : State), exec (.init nn key) s = .next t →
    ((1 ≤ nn ∧ nn ≤ 64 ∧ key.length ≤ 64 → t.outlen.val = nn) ∧
     (¬ (1 ≤ nn ∧ nn ≤ 64 ∧ key.length ≤ 64) → t.outlen = s.outlen))) ∧
  (∀ s t : State, step s = .next t → t.tag ≠ .finalized →
    (∀ c rest nn key, s.inbox = .command c :: rest → decode c ≠ .ok (.init nn key)) → t.outlen = s.outlen)

/-- Rule R63: after a refused command the next command is treated as if the refused one had never been sent: the state
cannot be told from the one in which it was not. -/
def Obligations.ErrorsLeaveNoTrace : Prop :=
  ∀ (s t : State) (c : Command) (r : Response), step (s.send (.command c)) = .next t →
    t.responses = s.responses ++ [r] → r.status ≠ .ok → Indistinguishable s t ∧ t.draws = s.draws

/-! ### The invariant (rules R8, R51) -/

/-- Rule R8: a context that has accepted a stream satisfies the four clauses of the rule: the fill level, the bytes in the
buffer, the deferred block, and the counter. -/
def Obligations.AcceptedStreamFillsTheBuffer : Prop :=
  ∀ (key input : List Byte) (s : State), Accepted key input s →
    s.buflen.val ≤ 128 ∧ s.buflen.val ≤ (stream key input).length ∧
    s.buf.toList.take s.buflen.val = (stream key input).drop ((stream key input).length - s.buflen.val) ∧
    (s.buflen.val = 0 → stream key input = []) ∧
    s.counter = ((stream key input).length - s.buflen.val) % 2 ^ 128

/-- Rules R8 and R51: a successful INIT starts a context that has accepted no input under its key; UPDATE appends its
payload to what the context has accepted. -/
def Obligations.CommandsAcceptTheStream : Prop :=
  (∀ (nn : Nat) (key : List Byte) (s : State), 1 ≤ nn → nn ≤ 64 → key.length ≤ 64 →
    ∃ t, exec (.init nn key) s = .next t ∧ Accepted key [] t) ∧
  (∀ (key input data : List Byte) (s : State), s.tag ≠ .finalized → Accepted key input s →
    ∃ t, exec (.update data) s = .next t ∧ t.tag ≠ .finalized ∧ t.outlen = s.outlen ∧ Accepted key (input ++ data) t)

/-- Rule R8, every step keeps the invariant: while a computation is in progress the context has accepted some input under
some key. -/
def Obligations.StepKeepsTheContextInvariant : Prop :=
  ∀ s t : State, ContextInv s → step s = .next t → ContextInv t

/-- The invariant holds after reset, whatever the open parameters are. -/
def Obligations.ResetMeetsTheContextInvariant : Prop :=
  (∀ o : OpenValues, ContextInv (State.resetWith o)) ∧ ContextInv State.reset

/-! ### The one-shot function (rules R49 to R52) -/

/-- Rules R49 and R51: the chunks of a stream, put together, are the stream; every chunk but the last has 128 bytes, and
the last has 1 to 128 unless the stream is empty; their number is `max(1, ceil(|S| / 128))`; the counter values the
chunks see are 128, 256, ..., modulo 2^128. -/
def Obligations.ChunksCoverTheStream : Prop :=
  ∀ S : List Byte,
    (fullChunks S).flatten ++ lastChunk S = S ∧
    (∀ c ∈ fullChunks S, c.length = 128) ∧
    (lastChunk S).length ≤ 128 ∧ (S ≠ [] → 1 ≤ (lastChunk S).length) ∧
    (fullChunks S).length + 1 = max 1 ((S.length + 127) / 128) ∧
    ∀ h : Vector Word 8, (hashChunks h (fullChunks S)).2 = 128 * (fullChunks S).length % 2 ^ 128

/-- Rules R49 and R52 (a): `hash` fails with InvalidParameter exactly on parameters out of range, and otherwise gives a
digest of exactly `nn` bytes. -/
def Obligations.HashHasTheRequestedLength : Prop :=
  ∀ (input key : List Byte) (nn : Nat),
    (1 ≤ nn ∧ nn ≤ 64 ∧ key.length ≤ 64 → ∃ D, hash input nn key = .ok D ∧ D.length = nn) ∧
    (¬ (1 ≤ nn ∧ nn ≤ 64 ∧ key.length ≤ 64) → hash input nn key = .error .invalidParameter)

/-- Rule R48 against rule R49: on a context that has accepted `input` under `key`, FINAL answers `hash(input, OUTLEN,
key)`. -/
def Obligations.FinalAnswersTheHash : Prop :=
  ∀ (key input : List Byte) (s : State), s.tag ≠ .finalized → Accepted key input s →
    ∃ t D, exec .final s = .next t ∧ hash input s.outlen.val key = .ok D ∧
      t.responses = s.responses ++ [⟨.ok, D⟩]

/-- Rule R50, streaming equivalence (and rule R26, the pseudo-instruction HASH): from any state of the core, INIT, the input
cut in any way over UPDATE commands, and FINAL get OK from every command, and FINAL answers the one-shot `hash` of the
whole input. -/
def Obligations.StreamingEqualsOneShot : Prop :=
  ∀ (s : State) (nn : Nat) (key : List Byte) (pieces : List (List Byte)) (rest : List Event), 1 ≤ nn → nn ≤ 64 →
    key.length ≤ 64 → s.inbox = hashCommands nn key pieces ++ rest →
    ∃ t D, core.run (pieces.length + 2) s = .next t ∧ hash pieces.flatten nn key = .ok D ∧
      t.responses = s.responses ++ List.replicate (pieces.length + 1) ⟨.ok, []⟩ ++ [⟨.ok, D⟩] ∧
      t.tag = .finalized ∧ t.inbox = rest

/-! ### What the host can learn, and several instances (rules R5, R52, R66, R67) -/

/-- Rules R8, R48 and R67: states the host cannot tell apart step to states it cannot tell apart, and give it the same
responses: what reset and FINAL leave in the state, and the buffer bytes past the fill level, are never observable. -/
def Obligations.IndistinguishableStatesStaySo : Prop :=
  ∀ s s' t t' : State, Indistinguishable s s' → step s = .next t → step s' = .next t' →
    Indistinguishable t t' ∧
    ∃ rs, t.responses = s.responses ++ rs ∧ t'.responses = s'.responses ++ rs

/-- Rule R52 (b): a computation started by INIT depends on nothing from before that INIT: with the same commands to come,
any two states are indistinguishable after the same successful INIT. -/
def Obligations.InitForgetsThePast : Prop :=
  ∀ (s s' : State) (nn : Nat) (key : List Byte), s.inbox = s'.inbox → 1 ≤ nn → nn ≤ 64 → key.length ≤ 64 →
    ∃ t t', exec (.init nn key) s = .next t ∧ exec (.init nn key) s' = .next t' ∧ Indistinguishable t t'

/-- Rule R5: what happens does not depend on the value of any data byte, key byte or state word: two states with the same
tag, fill level, counter and output length, under commands of the same kind with payloads of the same length, end with
the same tag, status and digest length, and (while a computation is in progress) the same fill level, counter and output
length. -/
def Obligations.ControlIgnoresData : Prop :=
  ∀ (s s' t t' : State) (i i' : Instr),
    (s.tag = s'.tag ∧ s.buflen = s'.buflen ∧ s.t0 = s'.t0 ∧ s.t1 = s'.t1 ∧ s.outlen = s'.outlen) →
    ((∃ nn key key', key.length = key'.length ∧ i = .init nn key ∧ i' = .init nn key') ∨
     (∃ data data', data.length = data'.length ∧ i = .update data ∧ i' = .update data') ∨
     (i = .final ∧ i' = .final)) →
    exec i s = .next t → exec i' s' = .next t' →
    t.tag = t'.tag ∧
    (t.tag ≠ .finalized → t.buflen = t'.buflen ∧ t.t0 = t'.t0 ∧ t.t1 = t'.t1 ∧ t.outlen = t'.outlen) ∧
    ∃ r r', t.responses = s.responses ++ [r] ∧ t'.responses = s'.responses ++ [r'] ∧ r.status = r'.status ∧
      r.digest.length = r'.digest.length

/-- Rule R66: whatever the interleaving of several instances' steps, each instance ends as if it had run alone for as many
steps as the schedule gives it. -/
def Obligations.InstancesRunAsIfAlone : Prop :=
  ∀ (schedule : List Nat) (cores : List State),
    ∃ cores', runInstances schedule cores = .next cores' ∧ cores'.length = cores.length ∧
      ∀ (k : Nat) (s : State), cores[k]? = some s →
        ∃ t, cores'[k]? = some t ∧ core.run (schedule.count k) s = .next t

/-! ### Notation (rule R56) -/

/-- Rule R56: a digest of `nn` bytes prints as exactly `2 · nn` hex digits, the digits of byte 0 first, its high digit
before its low one. -/
def Obligations.HexPrintsTwoDigitsPerByte : Prop :=
  (∀ bytes : List Byte, (hex bytes).length = 2 * bytes.length) ∧
  (∀ (b : Byte) (bytes : List Byte),
    hex (b :: bytes) = hexDigit (BitVec.ofNat 4 (b.toNat / 16)) :: hexDigit (BitVec.ofNat 4 (b.toNat % 16)) :: hex bytes) ∧
  (∀ bytes bytes' : List Byte, hex bytes = hex bytes' → bytes = bytes')
end

