-- ==== Sys2Proof/Laws/Bytes.lean ====
section
/-! SUPPORT. Little-endian, said once (rules R13, R14): the value of eight bytes, the bytes of a word, and what follows for
blocks, the parameter block and the serialized state. -/

namespace Sys2Proof.Machine

/-- A byte appended below a bit vector. -/
theorem toNat_append_byte {n : Nat} (x : BitVec n) (b : Byte) : (x ++ b).toNat = x.toNat * 256 + b.toNat := by
  rw [BitVec.toNat_append, ← Nat.shiftLeft_add_eq_or_of_lt b.isLt, Nat.shiftLeft_eq]

/-- The value of `LE64` (rule R13). -/
theorem le64_toNat (b0 b1 b2 b3 b4 b5 b6 b7 : Byte) :
    (le64 b0 b1 b2 b3 b4 b5 b6 b7).toNat =
      b0.toNat + 2 ^ 8 * b1.toNat + 2 ^ 16 * b2.toNat + 2 ^ 24 * b3.toNat + 2 ^ 32 * b4.toNat + 2 ^ 40 * b5.toNat +
        2 ^ 48 * b6.toNat + 2 ^ 56 * b7.toNat := by
  have whole : (le64 b0 b1 b2 b3 b4 b5 b6 b7).toNat = (b7 ++ b6 ++ b5 ++ b4 ++ b3 ++ b2 ++ b1 ++ b0).toNat := rfl
  rw [whole]
  simp only [toNat_append_byte]
  omega

/-- Byte `k` of a word as a number (rules R14, R53). -/
theorem extractByte_eq (x : Word) (k : Nat) : x.extractLsb' (8 * k) 8 = BitVec.ofNat 8 ((x.toNat >>> (8 * k)) % 256) := by
  apply BitVec.eq_of_toNat_eq
  simp [BitVec.extractLsb'_toNat]

/-- `bytesLE64` byte by byte (rule R14). -/
theorem bytesLE64_eq (x : Word) :
    bytesLE64 x = [x.extractLsb' 0 8, x.extractLsb' 8 8, x.extractLsb' 16 8, x.extractLsb' 24 8, x.extractLsb' 32 8,
      x.extractLsb' 40 8, x.extractLsb' 48 8, x.extractLsb' 56 8] := rfl

@[simp] theorem bytesLE64_length (x : Word) : (bytesLE64 x).length = 8 := rfl

/-- The serialized state has 64 bytes (rule R53). -/
@[simp] theorem serialize_length (h : Vector Word 8) : (serialize h).length = 64 := by
  simp [serialize, List.length_flatMap]

/-- A digest has the requested length (rule R54). -/
@[simp] theorem extract_length (h : Vector Word 8) (nn : OutLen) : (extract h nn).length = nn.val := by
  have := nn.le_64
  simp [extract]
  omega

end Sys2Proof.Machine
end

