-- ==== Sys2Proof/Laws/State.lean ====
section
/-! SUPPORT. One lemma per field per state update: what the named updates of Machine/Ops.lean and
Machine/BlockProcessor.lean write, and what they leave. Later proofs cite these and unfold no record update. -/

namespace Sys2Proof.Machine.State

variable (s : State)

@[simp] theorem respond_h (st : Status) (d : List Byte) : (s.respond st d).h = s.h := rfl
@[simp] theorem respond_t0 (st : Status) (d : List Byte) : (s.respond st d).t0 = s.t0 := rfl
@[simp] theorem respond_t1 (st : Status) (d : List Byte) : (s.respond st d).t1 = s.t1 := rfl
@[simp] theorem respond_buf (st : Status) (d : List Byte) : (s.respond st d).buf = s.buf := rfl
@[simp] theorem respond_buflen (st : Status) (d : List Byte) : (s.respond st d).buflen = s.buflen := rfl
@[simp] theorem respond_outlen (st : Status) (d : List Byte) : (s.respond st d).outlen = s.outlen := rfl
@[simp] theorem respond_tag (st : Status) (d : List Byte) : (s.respond st d).tag = s.tag := rfl
@[simp] theorem respond_inbox (st : Status) (d : List Byte) : (s.respond st d).inbox = s.inbox := rfl
@[simp] theorem respond_responses (st : Status) (d : List Byte) : (s.respond st d).responses = s.responses ++ [⟨st, d⟩] := rfl
@[simp] theorem respond_draws (st : Status) (d : List Byte) : (s.respond st d).draws = s.draws := rfl

@[simp] theorem raise_h (e : Status) : (s.raise e).h = s.h := rfl
@[simp] theorem raise_t0 (e : Status) : (s.raise e).t0 = s.t0 := rfl
@[simp] theorem raise_t1 (e : Status) : (s.raise e).t1 = s.t1 := rfl
@[simp] theorem raise_buf (e : Status) : (s.raise e).buf = s.buf := rfl
@[simp] theorem raise_buflen (e : Status) : (s.raise e).buflen = s.buflen := rfl
@[simp] theorem raise_outlen (e : Status) : (s.raise e).outlen = s.outlen := rfl
@[simp] theorem raise_tag (e : Status) : (s.raise e).tag = s.tag := rfl
@[simp] theorem raise_inbox (e : Status) : (s.raise e).inbox = s.inbox := rfl
@[simp] theorem raise_responses (e : Status) : (s.raise e).responses = s.responses ++ [⟨e, []⟩] := rfl
@[simp] theorem raise_draws (e : Status) : (s.raise e).draws = s.draws := rfl

@[simp] theorem ctrAdd_h (n : Nat) : (s.ctrAdd n).h = s.h := rfl
@[simp] theorem ctrAdd_t0 (n : Nat) : (s.ctrAdd n).t0 = BitVec.ofNat 64 (s.t0.toNat + n) := rfl
@[simp] theorem ctrAdd_t1 (n : Nat) : (s.ctrAdd n).t1 = BitVec.ofNat 64 (s.t1.toNat + (s.t0.toNat + n) / 2 ^ 64) := rfl
@[simp] theorem ctrAdd_buf (n : Nat) : (s.ctrAdd n).buf = s.buf := rfl
@[simp] theorem ctrAdd_buflen (n : Nat) : (s.ctrAdd n).buflen = s.buflen := rfl
@[simp] theorem ctrAdd_outlen (n : Nat) : (s.ctrAdd n).outlen = s.outlen := rfl
@[simp] theorem ctrAdd_tag (n : Nat) : (s.ctrAdd n).tag = s.tag := rfl
@[simp] theorem ctrAdd_inbox (n : Nat) : (s.ctrAdd n).inbox = s.inbox := rfl
@[simp] theorem ctrAdd_responses (n : Nat) : (s.ctrAdd n).responses = s.responses := rfl
@[simp] theorem ctrAdd_draws (n : Nat) : (s.ctrAdd n).draws = s.draws := rfl

@[simp] theorem compress_h (n : Nat) (f : Bool) : (s.compress n f).h = compressF s.h (loadM s.buf) (s.ctrAdd n).t0 (s.ctrAdd n).t1 f := rfl
@[simp] theorem compress_t0 (n : Nat) (f : Bool) : (s.compress n f).t0 = (s.ctrAdd n).t0 := rfl
@[simp] theorem compress_t1 (n : Nat) (f : Bool) : (s.compress n f).t1 = (s.ctrAdd n).t1 := rfl
@[simp] theorem compress_buf (n : Nat) (f : Bool) : (s.compress n f).buf = s.buf := rfl
@[simp] theorem compress_buflen (n : Nat) (f : Bool) : (s.compress n f).buflen = s.buflen := rfl
@[simp] theorem compress_outlen (n : Nat) (f : Bool) : (s.compress n f).outlen = s.outlen := rfl
@[simp] theorem compress_tag (n : Nat) (f : Bool) : (s.compress n f).tag = s.tag := rfl
@[simp] theorem compress_inbox (n : Nat) (f : Bool) : (s.compress n f).inbox = s.inbox := rfl
@[simp] theorem compress_responses (n : Nat) (f : Bool) : (s.compress n f).responses = s.responses := rfl
@[simp] theorem compress_draws (n : Nat) (f : Bool) : (s.compress n f).draws = s.draws := rfl

@[simp] theorem pad_h : (s.pad).h = s.h := rfl
@[simp] theorem pad_t0 : (s.pad).t0 = s.t0 := rfl
@[simp] theorem pad_t1 : (s.pad).t1 = s.t1 := rfl
@[simp] theorem pad_buf : (s.pad).buf = s.buf.mapIdx fun i b => if i < s.buflen.val then b else 0x00 := rfl
@[simp] theorem pad_buflen : (s.pad).buflen = s.buflen := rfl
@[simp] theorem pad_outlen : (s.pad).outlen = s.outlen := rfl
@[simp] theorem pad_tag : (s.pad).tag = s.tag := rfl
@[simp] theorem pad_inbox : (s.pad).inbox = s.inbox := rfl
@[simp] theorem pad_responses : (s.pad).responses = s.responses := rfl
@[simp] theorem pad_draws : (s.pad).draws = s.draws := rfl

@[simp] theorem store_h (i : Fin 128) (b : Byte) : (s.store i b).h = s.h := rfl
@[simp] theorem store_t0 (i : Fin 128) (b : Byte) : (s.store i b).t0 = s.t0 := rfl
@[simp] theorem store_t1 (i : Fin 128) (b : Byte) : (s.store i b).t1 = s.t1 := rfl
@[simp] theorem store_buf (i : Fin 128) (b : Byte) : (s.store i b).buf = s.buf.set i b := rfl
@[simp] theorem store_buflen (i : Fin 128) (b : Byte) : (s.store i b).buflen = i.succ := rfl
@[simp] theorem store_outlen (i : Fin 128) (b : Byte) : (s.store i b).outlen = s.outlen := rfl
@[simp] theorem store_tag (i : Fin 128) (b : Byte) : (s.store i b).tag = s.tag := rfl
@[simp] theorem store_inbox (i : Fin 128) (b : Byte) : (s.store i b).inbox = s.inbox := rfl
@[simp] theorem store_responses (i : Fin 128) (b : Byte) : (s.store i b).responses = s.responses := rfl
@[simp] theorem store_draws (i : Fin 128) (b : Byte) : (s.store i b).draws = s.draws := rfl

@[simp] theorem startContext_h (nn : OutLen) (key : List Byte) : (s.startContext nn key).h = initialState nn.val key.length := rfl
@[simp] theorem startContext_t0 (nn : OutLen) (key : List Byte) : (s.startContext nn key).t0 = 0 := rfl
@[simp] theorem startContext_t1 (nn : OutLen) (key : List Byte) : (s.startContext nn key).t1 = 0 := rfl
@[simp] theorem startContext_buf (nn : OutLen) (key : List Byte) : (s.startContext nn key).buf = blockOf key := rfl
@[simp] theorem startContext_buflen (nn : OutLen) (key : List Byte) : (s.startContext nn key).buflen = (if key = [] then 0 else 128) := rfl
@[simp] theorem startContext_outlen (nn : OutLen) (key : List Byte) : (s.startContext nn key).outlen = nn := rfl
@[simp] theorem startContext_tag (nn : OutLen) (key : List Byte) : (s.startContext nn key).tag = .fresh := rfl
@[simp] theorem startContext_inbox (nn : OutLen) (key : List Byte) : (s.startContext nn key).inbox = s.inbox := rfl
@[simp] theorem startContext_responses (nn : OutLen) (key : List Byte) : (s.startContext nn key).responses = s.responses := rfl
@[simp] theorem startContext_draws (nn : OutLen) (key : List Byte) : (s.startContext nn key).draws = s.draws := rfl

@[simp] theorem withOpen_h (o : OpenValues) : (s.withOpen o).h = o.h := rfl
@[simp] theorem withOpen_t0 (o : OpenValues) : (s.withOpen o).t0 = o.t0 := rfl
@[simp] theorem withOpen_t1 (o : OpenValues) : (s.withOpen o).t1 = o.t1 := rfl
@[simp] theorem withOpen_buf (o : OpenValues) : (s.withOpen o).buf = o.buf := rfl
@[simp] theorem withOpen_buflen (o : OpenValues) : (s.withOpen o).buflen = o.buflen := rfl
@[simp] theorem withOpen_outlen (o : OpenValues) : (s.withOpen o).outlen = o.outlen := rfl
@[simp] theorem withOpen_tag (o : OpenValues) : (s.withOpen o).tag = s.tag := rfl
@[simp] theorem withOpen_inbox (o : OpenValues) : (s.withOpen o).inbox = s.inbox := rfl
@[simp] theorem withOpen_responses (o : OpenValues) : (s.withOpen o).responses = s.responses := rfl
@[simp] theorem withOpen_draws (o : OpenValues) : (s.withOpen o).draws = s.draws := rfl

@[simp] theorem discard_h : (s.discard).h = (Config.openValues s.draws).h := rfl
@[simp] theorem discard_t0 : (s.discard).t0 = (Config.openValues s.draws).t0 := rfl
@[simp] theorem discard_t1 : (s.discard).t1 = (Config.openValues s.draws).t1 := rfl
@[simp] theorem discard_buf : (s.discard).buf = (Config.openValues s.draws).buf := rfl
@[simp] theorem discard_buflen : (s.discard).buflen = (Config.openValues s.draws).buflen := rfl
@[simp] theorem discard_outlen : (s.discard).outlen = (Config.openValues s.draws).outlen := rfl
@[simp] theorem discard_tag : (s.discard).tag = .finalized := rfl
@[simp] theorem discard_inbox : (s.discard).inbox = s.inbox := rfl
@[simp] theorem discard_responses : (s.discard).responses = s.responses := rfl
@[simp] theorem discard_draws : (s.discard).draws = s.draws + 1 := rfl

@[simp] theorem send_h (e : Event) : (s.send e).h = s.h := rfl
@[simp] theorem send_t0 (e : Event) : (s.send e).t0 = s.t0 := rfl
@[simp] theorem send_t1 (e : Event) : (s.send e).t1 = s.t1 := rfl
@[simp] theorem send_buf (e : Event) : (s.send e).buf = s.buf := rfl
@[simp] theorem send_buflen (e : Event) : (s.send e).buflen = s.buflen := rfl
@[simp] theorem send_outlen (e : Event) : (s.send e).outlen = s.outlen := rfl
@[simp] theorem send_tag (e : Event) : (s.send e).tag = s.tag := rfl
@[simp] theorem send_inbox (e : Event) : (s.send e).inbox = e :: s.inbox := rfl
@[simp] theorem send_responses (e : Event) : (s.send e).responses = s.responses := rfl
@[simp] theorem send_draws (e : Event) : (s.send e).draws = s.draws := rfl

@[simp] theorem setTag_h (t : Tag) : (s.setTag t).h = s.h := rfl
@[simp] theorem setTag_t0 (t : Tag) : (s.setTag t).t0 = s.t0 := rfl
@[simp] theorem setTag_t1 (t : Tag) : (s.setTag t).t1 = s.t1 := rfl
@[simp] theorem setTag_buf (t : Tag) : (s.setTag t).buf = s.buf := rfl
@[simp] theorem setTag_buflen (t : Tag) : (s.setTag t).buflen = s.buflen := rfl
@[simp] theorem setTag_outlen (t : Tag) : (s.setTag t).outlen = s.outlen := rfl
@[simp] theorem setTag_tag (t : Tag) : (s.setTag t).tag = t := rfl
@[simp] theorem setTag_inbox (t : Tag) : (s.setTag t).inbox = s.inbox := rfl
@[simp] theorem setTag_responses (t : Tag) : (s.setTag t).responses = s.responses := rfl
@[simp] theorem setTag_draws (t : Tag) : (s.setTag t).draws = s.draws := rfl

@[simp] theorem setInbox_h (es : List Event) : ({ s with inbox := es } : State).h = s.h := rfl
@[simp] theorem setInbox_t0 (es : List Event) : ({ s with inbox := es } : State).t0 = s.t0 := rfl
@[simp] theorem setInbox_t1 (es : List Event) : ({ s with inbox := es } : State).t1 = s.t1 := rfl
@[simp] theorem setInbox_buf (es : List Event) : ({ s with inbox := es } : State).buf = s.buf := rfl
@[simp] theorem setInbox_buflen (es : List Event) : ({ s with inbox := es } : State).buflen = s.buflen := rfl
@[simp] theorem setInbox_outlen (es : List Event) : ({ s with inbox := es } : State).outlen = s.outlen := rfl
@[simp] theorem setInbox_tag (es : List Event) : ({ s with inbox := es } : State).tag = s.tag := rfl
@[simp] theorem setInbox_inbox (es : List Event) : ({ s with inbox := es } : State).inbox = es := rfl
@[simp] theorem setInbox_responses (es : List Event) : ({ s with inbox := es } : State).responses = s.responses := rfl
@[simp] theorem setInbox_draws (es : List Event) : ({ s with inbox := es } : State).draws = s.draws := rfl

@[simp] theorem respond_counter (st : Status) (d : List Byte) : (s.respond st d).counter = s.counter := rfl
@[simp] theorem raise_counter (e : Status) : (s.raise e).counter = s.counter := rfl
@[simp] theorem compress_counter (n : Nat) (f : Bool) : (s.compress n f).counter = (s.ctrAdd n).counter := rfl
@[simp] theorem pad_counter : s.pad.counter = s.counter := rfl
@[simp] theorem store_counter (i : Fin 128) (b : Byte) : (s.store i b).counter = s.counter := rfl
@[simp] theorem startContext_counter (nn : OutLen) (key : List Byte) : (s.startContext nn key).counter = 0 := rfl
@[simp] theorem setTag_counter (t : Tag) : (s.setTag t).counter = s.counter := rfl
@[simp] theorem setInbox_counter (es : List Event) : ({ s with inbox := es } : State).counter = s.counter := rfl

@[simp] theorem resetWith_tag (o : OpenValues) : (resetWith o).tag = .finalized := rfl
@[simp] theorem resetWith_inbox (o : OpenValues) : (resetWith o).inbox = [] := rfl
@[simp] theorem resetWith_responses (o : OpenValues) : (resetWith o).responses = [] := rfl
@[simp] theorem reset_tag : reset.tag = .finalized := rfl

/-! ### FINAL's last block (rule R48): what it leaves alone -/

@[simp] theorem lastBlock_outlen : s.lastBlock.outlen = s.outlen := rfl
@[simp] theorem lastBlock_tag : s.lastBlock.tag = s.tag := rfl
@[simp] theorem lastBlock_inbox : s.lastBlock.inbox = s.inbox := rfl
@[simp] theorem lastBlock_responses : s.lastBlock.responses = s.responses := rfl
@[simp] theorem lastBlock_draws : s.lastBlock.draws = s.draws := rfl

end Sys2Proof.Machine.State
end

