-- ==== Sys2Proof/Laws/Ops.lean ====
section
/-! SUPPORT. What each shared operation does, said once: the counter, COMPRESS as one step of rule R49, PAD, and the byte
that UPDATE takes in. -/

namespace Sys2Proof.Machine

/-! ### The byte counter (rules R7, R43) -/

theorem State.counter_lt (s : State) : s.counter < 2 ^ 128 := by
  have h0 := s.t0.isLt
  have h1 := s.t1.isLt
  unfold State.counter
  omega

theorem State.t0_eq_counter (s : State) : s.t0 = BitVec.ofNat 64 (s.counter % 2 ^ 64) := by
  have h0 := s.t0.isLt
  apply BitVec.eq_of_toNat_eq
  simp only [State.counter, BitVec.toNat_ofNat]
  omega

theorem State.t1_eq_counter (s : State) : s.t1 = BitVec.ofNat 64 (s.counter / 2 ^ 64) := by
  have h0 := s.t0.isLt
  have h1 := s.t1.isLt
  apply BitVec.eq_of_toNat_eq
  simp only [State.counter, BitVec.toNat_ofNat]
  omega

/-- Rule R43: `T <- (T + n) mod 2^128`. -/
theorem State.ctrAdd_counter (s : State) (n : Nat) : (s.ctrAdd n).counter = (s.counter + n) % 2 ^ 128 := by
  have h0 := s.t0.isLt
  have h1 := s.t1.isLt
  simp only [State.counter, ctrAdd_t0, ctrAdd_t1, BitVec.toNat_ofNat]
  omega

/-- The two words of the counter are equal when the counters are. -/
theorem State.words_eq_of_counter_eq {s t : State} (h : s.counter = t.counter) : s.t0 = t.t0 ∧ s.t1 = t.t1 := by
  constructor
  · rw [s.t0_eq_counter, t.t0_eq_counter, h]
  · rw [s.t1_eq_counter, t.t1_eq_counter, h]

/-! ### COMPRESS (rule R45) -/

/-- COMPRESS on a buffer that is `blockOf c`: F on the chunk `c` at the advanced counter. -/
theorem State.compress_h_hashChunk (s : State) (n : Nat) (f : Bool) (c : List Byte) (hc : s.buf = blockOf c) :
    (s.compress n f).h = hashChunk s.h c ((s.counter + n) % 2 ^ 128) f := by
  rw [compress_h, (s.ctrAdd n).t0_eq_counter, (s.ctrAdd n).t1_eq_counter, s.ctrAdd_counter n, hc]
  rfl

/-! ### The bytes waiting in the buffer (rule R8) -/

/-- The `BUFLEN` leading bytes of `BUF`. -/
def State.waiting (s : State) : List Byte := s.buf.toList.take s.buflen.val

theorem State.waiting_eq (s : State) : s.waiting = s.buf.toList.take s.buflen.val := rfl

@[simp] theorem State.waiting_length (s : State) : s.waiting.length = s.buflen.val := by
  have := s.buflen.isLt
  simp [State.waiting]
  omega

/-- PAD leaves the waiting bytes as a zero-padded block (rule R44). -/
theorem State.pad_buf_blockOf (s : State) : s.pad.buf = blockOf s.waiting := by
  have hl := s.buflen.isLt
  ext i hi
  simp only [pad_buf, blockOf, Vector.getElem_ofFn, Vector.getElem_mapIdx, State.waiting, List.getD_eq_getElem?_getD, List.getElem?_take]
  split <;> rename_i h
  · simp [hi]
  · rfl

/-- A full buffer is the block of its waiting bytes. -/
theorem State.full_buf_blockOf (s : State) (full : s.buflen.val = 128) : s.buf = blockOf s.waiting := by
  ext i hi
  simp [blockOf, State.waiting, full]

/-! ### One byte of UPDATE (rule R47) -/

theorem State.absorb_room (s : State) (b : Byte) (room : s.buflen.val < 128) :
    s.absorb b = s.store ⟨s.buflen.val, room⟩ b := by
  simp [State.absorb, room]

theorem State.absorb_full (s : State) (b : Byte) (full : s.buflen.val = 128) :
    s.absorb b = (s.compress 128 false).store 0 b := by
  simp [State.absorb, full]

theorem State.buflen_full_of_not_room (s : State) (h : ¬ s.buflen.val < 128) : s.buflen.val = 128 := by
  have := s.buflen.isLt
  omega

/-- Writing at the end of a prefix extends the prefix. -/
theorem take_set_end {α : Type} (l : List α) (n : Nat) (b : α) (inside : n < l.length) :
    (l.set n b).take (n + 1) = l.take n ++ [b] := by
  rw [List.take_add_one]
  simp [List.take_set_of_le, inside]

/-- What a payload byte does to the buffer's waiting bytes. -/
theorem State.absorb_waiting (s : State) (b : Byte) :
    (s.absorb b).waiting = if s.buflen.val < 128 then s.waiting ++ [b] else [b] := by
  split <;> rename_i h
  · rw [s.absorb_room b h]
    simp only [State.waiting, store_buf, store_buflen, Fin.val_succ, Vector.toList_set]
    exact take_set_end _ _ _ (by simpa using h)
  · rw [s.absorb_full b (s.buflen_full_of_not_room h)]
    simp only [State.waiting, store_buf, store_buflen, compress_buf, Vector.toList_set]
    exact take_set_end _ 0 _ (by simp)

/-- What a payload byte does to the hash state and the counter: a full buffer is one chunk of rule R49. -/
theorem State.absorb_hash (s : State) (b : Byte) :
    ((s.absorb b).h, (s.absorb b).counter) =
      if s.buflen.val < 128 then (s.h, s.counter) else hashStep (s.h, s.counter) s.waiting := by
  split <;> rename_i h
  · rw [s.absorb_room b h]
    simp
  · have full := s.buflen_full_of_not_room h
    rw [s.absorb_full b full]
    simp [hashStep, s.ctrAdd_counter 128, -compress_h, s.compress_h_hashChunk 128 false _ (s.full_buf_blockOf full)]

/-- The fill level after a payload byte. -/
theorem State.absorb_buflen (s : State) (b : Byte) :
    (s.absorb b).buflen.val = if s.buflen.val < 128 then s.buflen.val + 1 else 1 := by
  split <;> rename_i h
  · simp [s.absorb_room b h]
  · simp [s.absorb_full b (s.buflen_full_of_not_room h)]

/-- The slot a payload byte goes to: the fill level modulo 128. -/
theorem State.absorb_buf (s : State) (b : Byte) :
    (s.absorb b).buf = s.buf.set (s.buflen.val % 128) b (Nat.mod_lt _ (by decide)) := by
  by_cases h : s.buflen.val < 128
  · simp [s.absorb_room b h, Nat.mod_eq_of_lt h]
  · have full := s.buflen_full_of_not_room h
    simp [s.absorb_full b full, full]

/-- The frame of one payload byte. -/
theorem State.absorb_frame (s : State) (b : Byte) :
    (s.absorb b).outlen = s.outlen ∧ (s.absorb b).tag = s.tag ∧ (s.absorb b).inbox = s.inbox ∧
      (s.absorb b).responses = s.responses ∧ (s.absorb b).draws = s.draws := by
  by_cases h : s.buflen.val < 128
  · simp [s.absorb_room b h]
  · simp [s.absorb_full b (s.buflen_full_of_not_room h)]

/-- The frame of a whole payload. -/
theorem State.absorbAll_frame (data : List Byte) (s : State) :
    (data.foldl State.absorb s).outlen = s.outlen ∧ (data.foldl State.absorb s).tag = s.tag ∧
      (data.foldl State.absorb s).inbox = s.inbox ∧ (data.foldl State.absorb s).responses = s.responses ∧
      (data.foldl State.absorb s).draws = s.draws := by
  induction data generalizing s with
  | nil => simp
  | cons b data ih =>
    obtain ⟨h1, h2, h3, h4, h5⟩ := s.absorb_frame b
    simpa [h1, h2, h3, h4, h5] using ih (s.absorb b)

/-- Taking in a byte looks at neither the tag nor the responses. -/
theorem State.absorb_setTag (s : State) (t : Tag) (b : Byte) : (s.setTag t).absorb b = (s.absorb b).setTag t := by
  by_cases h : s.buflen.val < 128
  · rw [s.absorb_room b h]
    exact (s.setTag t).absorb_room b h
  · have full := s.buflen_full_of_not_room h
    rw [s.absorb_full b full]
    exact (s.setTag t).absorb_full b full

theorem State.absorb_respond (s : State) (st : Status) (d : List Byte) (b : Byte) :
    (s.respond st d).absorb b = (s.absorb b).respond st d := by
  by_cases h : s.buflen.val < 128
  · rw [s.absorb_room b h]
    exact (s.respond st d).absorb_room b h
  · have full := s.buflen_full_of_not_room h
    rw [s.absorb_full b full]
    exact (s.respond st d).absorb_full b full

theorem State.absorbAll_setTag (data : List Byte) (s : State) (t : Tag) :
    data.foldl State.absorb (s.setTag t) = (data.foldl State.absorb s).setTag t := by
  induction data generalizing s with
  | nil => rfl
  | cons b data ih => rw [List.foldl_cons, absorb_setTag, ih, List.foldl_cons]

theorem State.absorbAll_respond (data : List Byte) (s : State) (st : Status) (d : List Byte) :
    data.foldl State.absorb (s.respond st d) = (data.foldl State.absorb s).respond st d := by
  induction data generalizing s with
  | nil => rfl
  | cons b data ih => rw [List.foldl_cons, absorb_respond, ih, List.foldl_cons]

/-! ### FINAL's compression (rule R48) -/

/-- FINAL's last block is the last chunk of rule R49: the waiting bytes, zero-padded, flag true. -/
theorem State.lastBlock_h (s : State) :
    s.lastBlock.h = hashChunk s.h s.waiting ((s.counter + s.buflen.val) % 2 ^ 128) true := by
  rw [lastBlock, compress_h_hashChunk _ _ _ _ s.pad_buf_blockOf, pad_counter, pad_h]

end Sys2Proof.Machine
end

