-- ==== Sys2Proof/Laws/Chunks.lean ====
section
/-! SUPPORT. The chunks of a stream (rule R49) as it grows byte by byte, and what a whole UPDATE payload does to a context
in terms of them (rule R47). -/

namespace Sys2Proof.Machine

/-- More input is more stream. -/
theorem stream_append (key input data : List Byte) : stream key (input ++ data) = stream key input ++ data := by
  simp [stream]

/-- The last chunk's length, from the stream's. -/
theorem lastChunk_length (S : List Byte) : (lastChunk S).length = S.length - 128 * ((S.length - 1) / 128) := by
  simp [lastChunk, fullCount]

theorem lastChunk_length_le (S : List Byte) : (lastChunk S).length ≤ 128 := by
  rw [lastChunk_length]
  omega

theorem fullChunks_length (S : List Byte) : (fullChunks S).length = (S.length - 1) / 128 := by
  simp [fullChunks, fullCount]

/-- A stream of at most 128 bytes is one chunk. -/
theorem fullChunks_short (S : List Byte) (short : S.length ≤ 128) : fullChunks S = [] := by
  have : (S.length - 1) / 128 = 0 := by omega
  simp [fullChunks, fullCount, this]

theorem lastChunk_short (S : List Byte) (short : S.length ≤ 128) : lastChunk S = S := by
  have : (S.length - 1) / 128 = 0 := by omega
  simp [lastChunk, fullCount, this]

/-- The first `n` chunks only look at the first `128 * n` bytes. -/
theorem chunks_append (S R : List Byte) (n : Nat) (inside : 128 * n ≤ S.length) :
    ((List.range n).map fun i => ((S ++ R).drop (128 * i)).take 128) =
      (List.range n).map fun i => (S.drop (128 * i)).take 128 := by
  apply List.map_congr_left
  intro i hi
  have hi := List.mem_range.mp hi
  have h1 : 128 * i ≤ S.length := by omega
  rw [List.drop_append_of_le_length h1, List.take_append_of_le_length (by simp; omega)]

/-- One more byte, while the last chunk has room. -/
theorem fullChunks_snoc_room (S : List Byte) (b : Byte) (room : (lastChunk S).length < 128) :
    fullChunks (S ++ [b]) = fullChunks S := by
  rw [lastChunk_length] at room
  have hc : fullCount (S ++ [b]) = fullCount S := by
    simp only [fullCount, List.length_append, List.length_singleton]
    omega
  unfold fullChunks
  rw [hc]
  exact chunks_append S [b] _ (by unfold fullCount; omega)

theorem lastChunk_snoc_room (S : List Byte) (b : Byte) (room : (lastChunk S).length < 128) :
    lastChunk (S ++ [b]) = lastChunk S ++ [b] := by
  rw [lastChunk_length] at room
  have hc : fullCount (S ++ [b]) = fullCount S := by
    simp only [fullCount, List.length_append, List.length_singleton]
    omega
  unfold lastChunk
  rw [hc, List.drop_append_of_le_length (by unfold fullCount; omega)]

/-- One more byte, when the last chunk is full: it becomes a chunk that is not the last. -/
theorem fullChunks_snoc_full (S : List Byte) (b : Byte) (full : (lastChunk S).length = 128) :
    fullChunks (S ++ [b]) = fullChunks S ++ [lastChunk S] := by
  have len := full
  rw [lastChunk_length] at len
  have hc : fullCount (S ++ [b]) = fullCount S + 1 := by
    simp only [fullCount, List.length_append, List.length_singleton]
    omega
  unfold fullChunks
  rw [hc, chunks_append S [b] _ (by unfold fullCount; omega), List.range_succ, List.map_append]
  congr 1
  simp only [List.map_cons, List.map_nil]
  exact congrArg (fun c => [c]) (List.take_of_length_le (le_of_eq full))

theorem lastChunk_snoc_full (S : List Byte) (b : Byte) (full : (lastChunk S).length = 128) :
    lastChunk (S ++ [b]) = [b] := by
  have len := full
  rw [lastChunk_length] at len
  have hc : 128 * fullCount (S ++ [b]) = S.length := by
    simp only [fullCount, List.length_append, List.length_singleton]
    omega
  unfold lastChunk
  rw [hc]
  simp

/-- Chunks of a longer stream: those of the shorter one that are not its last, then those of what is left. -/
theorem chunks_resume (S R : List Byte) :
    fullChunks (S ++ R) = fullChunks S ++ fullChunks (lastChunk S ++ R) ∧
      lastChunk (S ++ R) = lastChunk (lastChunk S ++ R) := by
  induction R using List.reverseRecOn with
  | nil =>
    have h := lastChunk_length_le S
    simp [fullChunks_short _ h, lastChunk_short _ h]
  | append_singleton R b ih =>
    obtain ⟨hf, hl⟩ := ih
    rw [← List.append_assoc, ← List.append_assoc]
    rcases Nat.lt_or_ge (lastChunk (S ++ R)).length 128 with room | ge
    · have room' := hl ▸ room
      rw [fullChunks_snoc_room _ _ room, fullChunks_snoc_room _ _ room', lastChunk_snoc_room _ _ room,
        lastChunk_snoc_room _ _ room', hf, hl]
      exact ⟨rfl, rfl⟩
    · have full : (lastChunk (S ++ R)).length = 128 := Nat.le_antisymm (lastChunk_length_le _) ge
      have full' := hl ▸ full
      rw [fullChunks_snoc_full _ _ full, fullChunks_snoc_full _ _ full', lastChunk_snoc_full _ _ full,
        lastChunk_snoc_full _ _ full', hf, hl, List.append_assoc]
      exact ⟨rfl, rfl⟩

/-- What a whole payload does (rule R47, the block-wise form): every piece of the waiting bytes and the payload but the
last is compressed, and the last waits. -/
theorem State.absorbAll_chunks (data : List Byte) (s : State) :
    (((data.foldl State.absorb s).h, (data.foldl State.absorb s).counter) =
        (fullChunks (s.waiting ++ data)).foldl hashStep (s.h, s.counter)) ∧
      (data.foldl State.absorb s).waiting = lastChunk (s.waiting ++ data) := by
  induction data using List.reverseRecOn with
  | nil =>
    have h : s.waiting.length ≤ 128 := by
      have := s.buflen.isLt
      simp
      omega
    simp [fullChunks_short _ h, lastChunk_short _ h]
  | append_singleton data b ih =>
    obtain ⟨hh, hw⟩ := ih
    rw [List.foldl_append, List.foldl_cons, List.foldl_nil, ← List.append_assoc, absorb_hash, absorb_waiting]
    have hl : (data.foldl State.absorb s).buflen.val = (lastChunk (s.waiting ++ data)).length := by
      rw [← hw, waiting_length]
    rw [hl, hh, hw]
    split <;> rename_i h
    · rw [fullChunks_snoc_room _ _ h, lastChunk_snoc_room _ _ h]
      exact ⟨rfl, rfl⟩
    · have full : (lastChunk (s.waiting ++ data)).length = 128 :=
        Nat.le_antisymm (lastChunk_length_le _) (Nat.le_of_not_lt h)
      rw [fullChunks_snoc_full _ _ full, lastChunk_snoc_full _ _ full, List.foldl_append]
      exact ⟨rfl, rfl⟩

/-- The fill level after a whole payload. -/
theorem State.absorbAll_buflen (data : List Byte) (s : State) :
    (data.foldl State.absorb s).buflen.val = (lastChunk (s.waiting ++ data)).length := by
  rw [← (s.absorbAll_chunks data).2, waiting_length]

/-- The counter after chunks that are not the last: 128 for each, modulo 2^128 (rule R51). -/
theorem foldl_hashStep_counter (cs : List (List Byte)) (h : Vector Word 8) (t : Nat) (small : t < 2 ^ 128) :
    (cs.foldl hashStep (h, t)).2 = (t + 128 * cs.length) % 2 ^ 128 := by
  induction cs generalizing h t with
  | nil => exact (Nat.mod_eq_of_lt (by simpa using small)).symm
  | cons c cs ih =>
    have one : hashStep (h, t) c = (hashChunk h c ((t + 128) % 2 ^ 128) false, (t + 128) % 2 ^ 128) := rfl
    rw [List.foldl_cons, one, ih _ _ (Nat.mod_lt _ (by decide)), List.length_cons]
    omega

end Sys2Proof.Machine
end

