-- ==== Sys2Proof/Laws/Mixing.lean ====
section
/-! SUPPORT. G on a work vector, slot by slot (rules R31, R32): it is `mixG4` on its four slots and the identity on the
rest. -/

namespace Sys2Proof.Machine

/-- The pairwise distinctness of a quadruple, as inequalities of slot numbers. -/
theorem Quadruple.slots_ne (q : Quadruple) :
    q.a.val ≠ q.b.val ∧ q.a.val ≠ q.c.val ∧ q.a.val ≠ q.d.val ∧ q.b.val ≠ q.c.val ∧ q.b.val ≠ q.d.val ∧
      q.c.val ≠ q.d.val := by
  have h := q.distinct
  simp only [List.nodup_cons, List.mem_cons, List.not_mem_nil, or_false, not_or] at h
  simp only [Fin.ext_iff] at h
  tauto

/-- The words G leaves, from the words it reads. -/
def mixed (v : Vector Word 16) (q : Quadruple) (x y : Word) : Mixed := mixG4 v[q.a] v[q.b] v[q.c] v[q.d] x y

/-- Every word of the work vector after G. -/
theorem mixG_getElem (v : Vector Word 16) (q : Quadruple) (x y : Word) (k : Nat) (hk : k < 16) :
    (mixG v q x y)[k] =
      if k = q.a.val then (mixed v q x y).a
      else if k = q.b.val then (mixed v q x y).b
      else if k = q.c.val then (mixed v q x y).c
      else if k = q.d.val then (mixed v q x y).d
      else v[k] := by
  obtain ⟨h1, h2, h3, h4, h5, h6⟩ := q.slots_ne
  simp only [mixG, mixed, mixG4, add64, Vector.getElem_set, Fin.getElem_fin, h1, h1.symm, h2, h2.symm, h3, h3.symm, h4,
    h4.symm, h5, h5.symm, h6, h6.symm, if_true, if_false, eq_comm (a := k)]
  by_cases ha : q.a.val = k
  · subst ha
    simp [h1.symm, h2.symm, h3.symm]
  · by_cases hb : q.b.val = k
    · subst hb
      simp [ha]
    · by_cases hc : q.c.val = k
      · subst hc
        simp [ha, hb]
      · by_cases hd : q.d.val = k
        · subst hd
          simp [ha, hb, hc]
        · simp [ha, hb, hc, hd]

end Sys2Proof.Machine
end

