-- ==== Sys2Proof/Laws/Compression.lean ====
section
/-! SUPPORT. The work vector word by word (rule R37), one round as a list of invocations (rule R38), and folds over an index
range taken in blocks. -/

namespace Sys2Proof.Machine

/-- Every word of the work vector at the start of F. -/
theorem workVector_getElem (h : Vector Word 8) (t0 t1 : Word) (f : Bool) (i : Nat) (hi : i < 16) :
    (workVector h t0 t1 f)[i] =
      if i = 14 then finalizationWord f iv[6]
      else if i = 13 then iv[5] ^^^ t1
      else if i = 12 then iv[4] ^^^ t0
      else if low : i < 8 then h[i] else iv[i - 8] := by
  simp only [workVector, Vector.getElem_set, Vector.getElem_cast, Vector.getElem_append, xor64, eq_comm (a := i)]
  by_cases h14 : 14 = i
  · subst h14
    rfl
  · by_cases h13 : 13 = i
    · subst h13
      rfl
    · by_cases h12 : 12 = i
      · subst h12
        rfl
      · simp only [h14, h13, h12, if_false]

/-- A fold over `k * n` indices is `n` folds over `k` indices each. -/
theorem foldl_range_mul {α : Type} (f : α → Nat → α) (a : α) (k n : Nat) :
    (List.range (k * n)).foldl f a =
      (List.range n).foldl (fun a r => (List.range k).foldl (fun a j => f a (k * r + j)) a) a := by
  induction n with
  | zero => rfl
  | succ n ih =>
    rw [Nat.mul_succ, List.range_add, List.foldl_append, ih, List.range_succ, List.foldl_append, List.foldl_map]
    rfl

/-- The invocations of a round are the four columns, then the four diagonals (rule R36). -/
theorem round_eq (m v : Vector Word 16) (r : Nat) :
    Machine.round m v r = ([4, 5, 6, 7] : List (Fin 8)).foldl (mixStep m r)
      (([0, 1, 2, 3] : List (Fin 8)).foldl (mixStep m r) v) := by
  rw [Machine.round, ← List.foldl_append]
  have split : List.finRange 8 = [0, 1, 2, 3] ++ [4, 5, 6, 7] := by decide
  rw [split]

end Sys2Proof.Machine
end

