-- ==== Sys2Proof/Laws/Decode.lean ====
section
/-! SUPPORT. The fields of a header are what format C puts there (rule R20), and the decoder's cases, said once. -/

namespace Sys2Proof

/-- Bit by bit, format C puts `OP` at 7:0, `NN` at 15:8 and `RSV` at 31:16. -/
theorem formatC_getLsbD (rsv : BitVec 16) (nn op : BitVec 8) (i : Nat) :
    (formatC rsv nn op).getLsbD i =
      if i < 8 then op.getLsbD i else if i < 16 then nn.getLsbD (i - 8) else rsv.getLsbD (i - 16) := by
  have outer := BitVec.getLsbD_append (x := rsv ++ nn) (y := op) (i := i)
  have inner := BitVec.getLsbD_append (x := rsv) (y := nn) (i := i - 8)
  refine outer.trans ?_
  rw [inner]
  by_cases h8 : i < 8
  · simp [h8]
  · by_cases h16 : i < 16
    · simp [h8, h16, show i - 8 < 8 by omega]
    · simp [h8, h16, show ¬ i - 8 < 8 by omega, show i - 8 - 8 = i - 16 by omega]

@[simp] theorem opField_formatC (rsv : BitVec 16) (nn op : BitVec 8) : opField (formatC rsv nn op) = op := by
  apply BitVec.eq_of_getLsbD_eq
  intro i hi
  simp [opField, formatC_getLsbD, hi]

@[simp] theorem nnField_formatC (rsv : BitVec 16) (nn op : BitVec 8) : nnField (formatC rsv nn op) = nn := by
  apply BitVec.eq_of_getLsbD_eq
  intro i hi
  simp [nnField, formatC_getLsbD, hi, show 8 + i < 16 by omega]

@[simp] theorem rsvField_formatC (rsv : BitVec 16) (nn op : BitVec 8) : rsvField (formatC rsv nn op) = rsv := by
  apply BitVec.eq_of_getLsbD_eq
  intro i hi
  simp [rsvField, formatC_getLsbD, hi, show ¬ 16 + i < 8 by omega]

/-- A header is made of its three fields. -/
theorem formatC_fields (hdr : Header) : formatC (rsvField hdr) (nnField hdr) (opField hdr) = hdr := by
  apply BitVec.eq_of_getLsbD_eq
  intro i hi
  rw [formatC_getLsbD]
  by_cases h8 : i < 8
  · simp [h8, opField]
  · by_cases h16 : i < 16
    · simp [h8, h16, nnField, show i - 8 < 8 by omega, show 8 + (i - 8) = i by omega]
    · simp [h8, h16, rsvField, show i - 16 < 16 by omega, show 16 + (i - 16) = i by omega]

/-- Every command the decoder accepts has one of the three forms of rules R21, R22, R23. -/
theorem decode_ok_cases (c : Command) (i : Instr) (h : decode c = .ok i) :
    rsvField c.hdr = 0 ∧
      ((opField c.hdr = 0x01 ∧ i = .init (nnField c.hdr).toNat c.payload) ∨
       (opField c.hdr = 0x02 ∧ nnField c.hdr = 0 ∧ i = .update c.payload) ∨
       (opField c.hdr = 0x03 ∧ nnField c.hdr = 0 ∧ c.payload = [] ∧ i = .final)) := by
  unfold decode at h
  split at h
  · cases h
  · rename_i hr
    refine ⟨by simpa using hr, ?_⟩
    split at h
    · cases h
      simp_all
    · split at h
      · split at h <;> cases h
        simp_all
      · split at h
        · split at h
          · cases h
          · split at h <;> cases h
            simp_all
        · cases h

variable (hdr : Header) (P : List Byte)

/-- A command in INIT's form is accepted (rule R21). -/
theorem decode_init (hr : rsvField hdr = 0) (ho : opField hdr = 0x01) :
    decode ⟨hdr, P⟩ = .ok (.init (nnField hdr).toNat P) := by
  simp [decode, hr, ho]

/-- A command in UPDATE's form is accepted (rule R22). -/
theorem decode_update (hr : rsvField hdr = 0) (ho : opField hdr = 0x02) (hn : nnField hdr = 0) :
    decode ⟨hdr, P⟩ = .ok (.update P) := by
  simp [decode, hr, ho, hn]

/-- A command in FINAL's form is accepted (rule R23). -/
theorem decode_final (hr : rsvField hdr = 0) (ho : opField hdr = 0x03) (hn : nnField hdr = 0) :
    decode ⟨hdr, []⟩ = .ok .final := by
  simp [decode, hr, ho, hn]

/-- Rule R27: a non-zero `RSV`. -/
theorem decode_reservedBits (hr : rsvField hdr ≠ 0) : decode ⟨hdr, P⟩ = .error .reservedBits := if_pos hr

/-- Rule R27: a reserved opcode. -/
theorem decode_reservedOpcode (hr : rsvField hdr = 0) (h1 : opField hdr ≠ 0x01) (h2 : opField hdr ≠ 0x02)
    (h3 : opField hdr ≠ 0x03) : decode ⟨hdr, P⟩ = .error .reservedOpcode := by
  simp only [decode, hr, ne_eq, not_true_eq_false, if_false, h1, h2, h3]

/-- Rule R27: a non-zero `NN` on UPDATE or FINAL. -/
theorem decode_nnNotZero (hr : rsvField hdr = 0) (ho : opField hdr = 0x02 ∨ opField hdr = 0x03)
    (hn : nnField hdr ≠ 0) : decode ⟨hdr, P⟩ = .error .nnNotZero := by
  rcases ho with ho | ho <;> simp only [decode, hr, ho, hn, ne_eq, not_true_eq_false, not_false_eq_true, if_false,
    if_true] <;> rfl

/-- Rule R27: a payload on FINAL. -/
theorem decode_payloadOnFinal (hr : rsvField hdr = 0) (ho : opField hdr = 0x03) (hn : nnField hdr = 0) (hp : P ≠ []) :
    decode ⟨hdr, P⟩ = .error .payloadOnFinal := by
  simp [decode, hr, ho, hn, hp]

end Sys2Proof
end

