-- ==== Sys2Proof/Laws/PerInstr.lean ====
section
/-! SUPPORT. Facts about every instruction as syntax, one lemma per constructor: the reserved bits of its encoding are
zero (rule R20). -/

/-- `RSV` is 0 in the encoding of every instruction (rules R20 to R23). -/
def Sys2Proof.Laws.ReservedBitsZero.Statement (i : Sys2Proof.Instr) : Prop :=
  Sys2Proof.rsvField (Sys2Proof.encode i).hdr = 0

theorem Sys2Proof.Laws.ReservedBitsZero.init (nn : Nat) (key : List Sys2Proof.Byte) :
    Sys2Proof.Laws.ReservedBitsZero.Statement (.init nn key) :=
  Sys2Proof.rsvField_formatC 0 (BitVec.ofNat 8 nn) 0x01

theorem Sys2Proof.Laws.ReservedBitsZero.update (data : List Sys2Proof.Byte) :
    Sys2Proof.Laws.ReservedBitsZero.Statement (.update data) :=
  Sys2Proof.rsvField_formatC 0 0 0x02

theorem Sys2Proof.Laws.ReservedBitsZero.final : Sys2Proof.Laws.ReservedBitsZero.Statement .final :=
  Sys2Proof.rsvField_formatC 0 0 0x03
end

