-- ==== Sys2Proof/Laws/Step.lean ====
section
/-! SUPPORT. What a command and a step can do, said once: every claim about a step goes through `step_cases`, every claim
about a command through the equations of its meaning. -/

namespace Sys2Proof.Machine

/-! ### The meanings, case by case -/

/-- INIT on legal parameters (rule R46). -/
theorem exec_init_ok (nn : OutLen) (key : List Byte) (s : State) (short : key.length ≤ 64) :
    exec (.init nn.val key) s = .next ((s.startContext nn key).respond .ok []) := by
  simp [exec, execInit, nn.one_le, nn.le_64, short]

/-- INIT on parameters out of range (rules R46, R57). -/
theorem exec_init_refused (nn : Nat) (key : List Byte) (s : State)
    (out : ¬ (1 ≤ nn ∧ nn ≤ 64 ∧ key.length ≤ 64)) : exec (.init nn key) s = .next (s.raise .invalidParameter) := by
  simp only [exec, execInit]
  split
  · rename_i range
    simp [range] at out
    rw [if_neg (by omega)]
  · rfl

/-- INIT has these two outcomes and no other. -/
theorem exec_init_cases (nn : Nat) (key : List Byte) (s : State) :
    (∃ n : OutLen, n.val = nn ∧ key.length ≤ 64 ∧
        exec (.init nn key) s = .next ((s.startContext n key).respond .ok [])) ∨
      (¬ (1 ≤ nn ∧ nn ≤ 64 ∧ key.length ≤ 64) ∧ exec (.init nn key) s = .next (s.raise .invalidParameter)) := by
  by_cases range : 1 ≤ nn ∧ nn ≤ 64 ∧ key.length ≤ 64
  · exact .inl ⟨⟨nn, range.1, range.2.1⟩, rfl, range.2.2, exec_init_ok ⟨nn, range.1, range.2.1⟩ key s range.2.2⟩
  · exact .inr ⟨range, exec_init_refused nn key s range⟩

/-- UPDATE on a Finalized context (rule R58). -/
theorem exec_update_refused (data : List Byte) (s : State) (fin : s.tag = .finalized) :
    exec (.update data) s = .next (s.raise .invalidUsage) := by
  simp [exec, execUpdate, fin]

/-- UPDATE with an empty payload (rule R47). -/
theorem exec_update_empty (s : State) (live : s.tag ≠ .finalized) :
    exec (.update []) s = .next (s.respond .ok []) := by
  simp [exec, execUpdate, live]

/-- UPDATE with message bytes (rule R47). -/
theorem exec_update_bytes (data : List Byte) (s : State) (live : s.tag ≠ .finalized) (some : data ≠ []) :
    exec (.update data) s = .next (((data.foldl State.absorb s).setTag .active).respond .ok []) := by
  simp [exec, execUpdate, live, some]

/-- FINAL on a Finalized context (rule R58). -/
theorem exec_final_refused (s : State) (fin : s.tag = .finalized) :
    exec .final s = .next (s.raise .invalidUsage) := by
  simp [exec, execFinal, fin]

/-- FINAL on a context in progress (rule R48). -/
theorem exec_final_ok (s : State) (live : s.tag ≠ .finalized) :
    exec .final s = .next (s.lastBlock.discard.respond .ok (extract s.lastBlock.h s.lastBlock.outlen)) := by
  simp [exec, execFinal, live]

/-- UPDATE has these three outcomes and no other. -/
theorem exec_update_cases (data : List Byte) (s : State) :
    (s.tag = .finalized ∧ exec (.update data) s = .next (s.raise .invalidUsage)) ∨
    (s.tag ≠ .finalized ∧ data = [] ∧ exec (.update data) s = .next (s.respond .ok [])) ∨
    (s.tag ≠ .finalized ∧ data ≠ [] ∧
      exec (.update data) s = .next (((data.foldl State.absorb s).setTag .active).respond .ok [])) := by
  by_cases fin : s.tag = .finalized
  · exact .inl ⟨fin, exec_update_refused data s fin⟩
  · by_cases none : data = []
    · subst none
      exact .inr (.inl ⟨fin, rfl, exec_update_empty s fin⟩)
    · exact .inr (.inr ⟨fin, none, exec_update_bytes data s fin none⟩)

/-- FINAL has these two outcomes and no other. -/
theorem exec_final_cases (s : State) :
    (s.tag = .finalized ∧ exec .final s = .next (s.raise .invalidUsage)) ∨
    (s.tag ≠ .finalized ∧
      exec .final s = .next (s.lastBlock.discard.respond .ok (extract s.lastBlock.h s.lastBlock.outlen))) := by
  by_cases fin : s.tag = .finalized
  · exact .inl ⟨fin, exec_final_refused s fin⟩
  · exact .inr ⟨fin, exec_final_ok s fin⟩

/-- The next state is one state. -/
theorem next_injective {s t : State} (h : (.next s : Host.Outcome State Fault Refusal) = .next t) : s = t := by
  injection h

/-- The response a command adds to the record is one response. -/
theorem response_injective {rs : List Response} {a b : Response} (h : rs ++ [a] = rs ++ [b]) : a = b := by
  simpa using List.append_cancel_left h

/-! ### Steps -/

theorem step_idle (s : State) (h : s.inbox = []) : step s = .next s := by
  simp [step, State.nextEvent, h]

theorem step_reset (s : State) (rest : List Event) (h : s.inbox = .reset :: rest) :
    step s = .next ({ s with inbox := rest } : State).takeReset := by
  simp [step, State.nextEvent, h]

theorem step_command_ok (s : State) (c : Command) (rest : List Event) (i : Instr) (h : s.inbox = .command c :: rest)
    (hd : decode c = .ok i) : step s = exec i { s with inbox := rest } := by
  simp [step, State.nextEvent, h, hd]

theorem step_command_illegal (s : State) (c : Command) (rest : List Event) (e : Illegal)
    (h : s.inbox = .command c :: rest) (hd : decode c = .error e) :
    step s = .next (({ s with inbox := rest } : State).raise .illegalCommand) := by
  simp [step, State.nextEvent, h, hd]

/-- One step of a run. -/
theorem run_succ (k : Nat) (s t : State) (h : step s = .next t) : core.run (k + 1) s = core.run k t := by
  have first : core.step s = .next t := h
  simp only [Host.Core.run, first]

/-- Everything a step can do. -/
theorem step_cases (s : State) :
    (s.inbox = [] ∧ step s = .next s) ∨
    (∃ rest, s.inbox = .reset :: rest ∧ step s = .next ({ s with inbox := rest } : State).takeReset) ∨
    (∃ c rest e, s.inbox = .command c :: rest ∧ decode c = .error e ∧
      step s = .next (({ s with inbox := rest } : State).raise .illegalCommand)) ∨
    (∃ c rest i, s.inbox = .command c :: rest ∧ decode c = .ok i ∧ step s = exec i { s with inbox := rest }) := by
  rcases h : s.inbox with _ | ⟨e, rest⟩
  · exact .inl ⟨rfl, step_idle s h⟩
  · cases e with
    | reset => exact .inr (.inl ⟨rest, rfl, step_reset s rest h⟩)
    | command c =>
      cases hd : decode c with
      | error e => exact .inr (.inr (.inl ⟨c, rest, e, rfl, hd, step_command_illegal s c rest e h hd⟩))
      | ok i => exact .inr (.inr (.inr ⟨c, rest, i, rfl, hd, step_command_ok s c rest i h hd⟩))

end Sys2Proof.Machine
end

