-- ==== Sys2Proof/Tests/Slice0.lean ====
section
/-! SUPPORT. Tests: the well-formedness smoke, words written out from the spec's encodings, the spec's own rows and
vectors, and for each obligation with hypotheses a concrete state and operands that meet them (names ending in
`witness`). Every expected value is copied from spec/ (the file is named beside it), none from this model. -/

namespace Sys2Proof.Tests

open Sys2Proof Sys2Proof.Machine

/-! ### Small states and operands -/

/-- `pat(n)` of spec/95_test_vectors.md: the bytes 00, 01, 02, ... -/
def pat (n : Nat) : List Byte := (List.range n).map (BitVec.ofNat 8)

def len64 : OutLen := ⟨64, by decide, by decide⟩

def len32 : OutLen := ⟨32, by decide, by decide⟩

/-- After `INIT 64` from reset, the interface record left empty. -/
def freshState : State := State.reset.startContext len64 []

/-- After `INIT 64` with the key `pat(64)`. -/
def keyedState : State := State.reset.startContext len64 (pat 64)

/-- After `INIT 64` and `UPDATE 616263`. -/
def abcState : State := ([0x61, 0x62, 0x63].foldl State.absorb freshState).setTag .active

/-- A state with a given counter. -/
def countedState (t1 t0 : Word) : State := { State.reset with t1 := t1, t0 := t0 }

/-- The response a run's last step gave. -/
def lastResponse (o : Host.Outcome State Fault Refusal) : Option Response :=
  match o with
  | .next t => t.responses.getLast?
  | .fault _ => none
  | .refused _ => none

/-! ### Well-formedness (rule R20) -/

theorem test_wellFormed_refuses_wide_nn : Instr.wellFormed (.init 256 []) = false := by decide

theorem test_wellFormed_admits_any_byte_nn :
    Instr.wellFormed (.init 255 []) = true ∧ Instr.wellFormed (.init 0 []) = true := by decide

/-! ### Words, written out bit by bit from spec/30_encoding.md: RSV, NN, OP -/

theorem test_decode_init : decode ⟨0b0000000000000000_01000000_00000001#32, []⟩ = .ok (.init 64 []) := by decide

theorem test_decode_init_keyed :
    decode ⟨0b0000000000000000_00100000_00000001#32, [0x6b, 0x65]⟩ = .ok (.init 32 [0x6b, 0x65]) := by decide

theorem test_decode_update : decode ⟨0b0000000000000000_00000000_00000010#32, [0x61]⟩ = .ok (.update [0x61]) := by decide

theorem test_decode_final : decode ⟨0b0000000000000000_00000000_00000011#32, []⟩ = .ok .final := by decide

theorem test_decode_refuses_reserved_bit :
    decode ⟨0b0000000000000001_01000000_00000001#32, []⟩ = .error .reservedBits := by decide

theorem test_decodeTableWord :
    decodeTableWord 32 0x00004001 = some (.init 64 []) ∧ decodeTableWord 32 2 = some (.update []) ∧
      decodeTableWord 32 3 = some .final ∧ decodeTableWord 32 4 = none := by decide

/-! ### Primitives and G (spec/95_test_vectors.md section 2, spec/40_mixing_g.md section 3) -/

theorem test_rotr64 :
    rotr64 0x0123456789ABCDEF 24 = 0xABCDEF0123456789 ∧ rotr64 0x0123456789ABCDEF 63 = 0x02468ACF13579BDE := by decide

theorem test_not64 : not64 0x1F83D9ABFB41BD6B = 0xE07C265404BE4294 := by decide

theorem test_mixG4 :
    mixG4 0x0123456789abcdef 0xfedcba9876543210 0x0f1e2d3c4b5a6978 0x8796a5b4c3d2e1f0 0x1111111111111111
      0x2222222222222222 = ⟨0xe95f405271d7b7c9, 0xa6c4a94d586303f4, 0xe54e59b99295056d, 0x036c3b9cb0b2e750⟩ := by
  decide +kernel

/-! ### F and the initial state (spec/42_block_processor.md rule R42, spec/95_test_vectors.md section 3) -/

theorem test_initialState :
    (initialState 64 64)[0] = 0x6A09E667F2BD8948 ∧ (initialState 32 1)[0] = 0x6A09E667F2BDC828 := by decide +kernel

/-- Section 3.1: the compression of `abc`. -/
theorem test_compressF :
    compressF (initialState 64 0) (loadM (blockOf [0x61, 0x62, 0x63])) 3 0 true =
      #v[0x0d4d1c983fa580ba, 0xe9f6129fb697276a, 0xb7c45a68142f214c, 0xd1a2ffdb6fbb124b, 0x2d79ab2a39c5877d,
        0x95cc3345ded552c2, 0x5a92f1dba88ad318, 0x239900d4ed8623b9] := by decide +kernel

/-- Section 3.2, row 4: the high counter word, flag false. -/
theorem test_compressF_high_counter :
    compressF (initialState 64 0) (Vector.replicate 16 0) 0 1 false =
      #v[0xf96013fc926706c6, 0xbcc002d1ba4ceb0e, 0x1337a4b623fe0e1a, 0xc499584bcf587693, 0x3b894af8ddf49b58,
        0x4fdb078d2c3140d9, 0xa1452db538a6fd07, 0xaf78d2e55e33de82] := by decide +kernel

/-! ### The block processor (spec/95_test_vectors.md sections 4.2, 4.3, 7) -/

/-- Section 4.2: the carry rows of the counter. -/
theorem test_ctrAdd :
    ((countedState 5 0xFFFFFFFFFFFFFF80).ctrAdd 128).t1 = 6 ∧ ((countedState 5 0xFFFFFFFFFFFFFF80).ctrAdd 128).t0 = 0 ∧
      ((countedState 0xFFFFFFFFFFFFFFFF 0xFFFFFFFFFFFFFFFF).ctrAdd 1).counter = 0 ∧
      ((countedState 0 0xFFFFFFFFFFFFFFC0).ctrAdd 128).t0 = 0x40 := by decide +kernel

/-- Section 4.3, row 4: nine bytes, padded and loaded. -/
theorem test_pad_loadM :
    (loadM (((pat 9).foldl State.absorb freshState).pad.buf))[0] = 0x0706050403020100 ∧
      (loadM (((pat 9).foldl State.absorb freshState).pad.buf))[1] = 8 := by decide +kernel

/-- Program P4, step 1: the key block waits in the buffer. -/
theorem test_init_keyed :
    keyedState.h[0] = 0x6a09e667f2bd8948 ∧ keyedState.buflen.val = 128 ∧ keyedState.counter = 0 ∧
      keyedState.buf[63] = 0x3f ∧ keyedState.buf[64] = 0 := by decide +kernel

/-- Program P3, steps 3 and 4: lengths out of range, at both ends. -/
theorem test_init_refuses :
    lastResponse (exec (.init 0 []) State.reset) = some ⟨.invalidParameter, []⟩ ∧
      lastResponse (exec (.init 65 []) State.reset) = some ⟨.invalidParameter, []⟩ := by decide +kernel

/-- Program P2, step 2: a full buffer is not yet compressed. -/
theorem test_update_defers :
    ((pat 128).foldl State.absorb freshState).counter = 0 ∧
      ((pat 128).foldl State.absorb freshState).buflen.val = 128 := by decide +kernel

/-- Program P4, step 4: the message byte compresses the key block. -/
theorem test_update_compresses_key_block :
    (keyedState.absorb 0).h[0] = 0xff3e48ac606d2724 ∧ (keyedState.absorb 0).counter = 128 ∧
      (keyedState.absorb 0).buflen.val = 1 := by decide +kernel

/-- Program P1, step 3, the source's vector 3: the first and the last bytes of the digest. -/
theorem test_final_abc :
    (lastResponse (exec .final abcState)).map (fun r => (r.status, r.digest.take 8, r.digest.drop 60)) =
      some (.ok, [0xba, 0x80, 0xa5, 0x3f, 0x98, 0x1c, 0x4d, 0x0d], [0xd4, 0x00, 0x99, 0x23]) := by decide +kernel

/-- Program P3, step 1: no context after reset. -/
theorem test_final_after_reset : lastResponse (exec .final State.reset) = some ⟨.invalidUsage, []⟩ := by decide +kernel

/-- Program P3, step 5: a reserved opcode. -/
theorem test_step_illegal :
    lastResponse (step (State.reset.withFetchWord 32 4)) = some ⟨.illegalCommand, []⟩ := by decide +kernel

/-- Section 5, extractor row `nn = 9`. -/
theorem test_extract :
    extract #v[0x0d4d1c983fa580ba, 0xe9f6129fb697276a, 0, 0, 0, 0, 0, 0] ⟨9, by decide, by decide⟩ =
      [0xba, 0x80, 0xa5, 0x3f, 0x98, 0x1c, 0x4d, 0x0d, 0x6a] := by decide +kernel

/-- Rule R26: the lines of programs P4 and P3, and a HASH line in its form. -/
theorem test_assemblerLine :
    assemblerLine (.init 64 [0x00, 0x3f]) = "INIT 64, key=003f".toList ∧ assemblerLine (.update []) = "UPDATE -".toList ∧
      hashLine 1 [0x6b] [0x61, 0x62] = "HASH 1, 6162, key=6b".toList := by decide +kernel

/-! ### Witnesses: concrete states and operands that meet the hypotheses of each obligation

Where hypotheses are only ranges, the witness is at both ends of the range. -/

theorem test_DecodeAndEncodeAreInverse_witness :
    Instr.wellFormed (.init 255 [0x61]) = true ∧ Instr.wellFormed .final = true ∧
      decode ⟨0x0000FF01#32, [0x61]⟩ = .ok (.init 255 [0x61]) := by decide

theorem test_OpcodeRowsDecode_witness :
    0x0000FF01#32 &&& 0xFFFF00FF#32 = 0x00000001#32 ∧ 0x00000002#32 &&& 0xFFFFFFFF#32 = 0x00000002#32 ∧
      0x00000003#32 &&& 0xFFFFFFFF#32 = 0x00000003#32 ∧ ([0x00] : List Byte) ≠ [] ∧
      (⟨"INIT", 0x00000001, 0xFFFF00FF⟩ : OpcodeRow) ∈ opcodeRows ∧
      OpcodeRow.hits ⟨"INIT", 0x00000001, 0xFFFF00FF⟩ 0x0000FF01#32 = true ∧
      (0 < 1 ∧ 64 < 65 ∧ 64 < (pat 65).length) := by decide

/-- One state with a header that is no command next, for each way of not being one. -/
theorem test_IllegalPairsAreRefused_witness :
    ∀ c ∈ ([⟨0x00014001#32, []⟩, ⟨0x00000102#32, []⟩, ⟨0x00000003#32, [0x00]⟩, ⟨0x00000004#32, []⟩] : List Command),
      (State.reset.send (.command c)).inbox = .command c :: [] ∧ ¬ wellFormedPair c := by
  intro c h
  refine ⟨rfl, ?_⟩
  simp only [List.mem_cons, List.not_mem_nil, or_false] at h
  rcases h with rfl | rfl | rfl | rfl <;> unfold wellFormedPair <;> decide

theorem test_StepRunsTheDecodedCommand_witness :
    (freshState.send (.command ⟨0x00000003#32, []⟩)).inbox = .command ⟨0x00000003#32, []⟩ :: [] ∧
      decode ⟨0x00000003#32, []⟩ = .ok .final ∧ Instr.wellFormed .final = true := ⟨rfl, by decide, by decide⟩

theorem test_WaitingAndReset_witness :
    freshState.inbox = [] ∧ (freshState.send .reset).inbox = .reset :: [] := ⟨rfl, rfl⟩

/-- The ranges of INIT's operands (also those of the statements on rules R42, R46, R49, R50, R52). -/
theorem test_init_ranges_witness :
    (1 ≤ 1 ∧ 1 ≤ 64 ∧ ([] : List Byte).length ≤ 64) ∧ (1 ≤ 64 ∧ 64 ≤ 64 ∧ (pat 64).length ≤ 64) ∧
      ¬ (1 ≤ 0 ∧ 0 ≤ 64 ∧ (pat 64).length ≤ 64) ∧ ¬ (1 ≤ 64 ∧ 64 ≤ 64 ∧ (pat 65).length ≤ 64) := by decide

theorem test_Xor64_Rotr64_witness : (0 < 64 ∧ 63 < 64) ∧ (0 ≤ 63 ∧ 63 ≤ 63 ∧ 1 ≤ 63) := by decide

theorem test_DisjointMixesCommute_witness :
    List.Disjoint [quadruples[0].a, quadruples[0].b, quadruples[0].c, quadruples[0].d]
      [quadruples[1].a, quadruples[1].b, quadruples[1].c, quadruples[1].d] := by
  intro k
  revert k
  decide

theorem test_MixIsG4OnItsSlots_witness :
    (1 : Fin 16) ∉ [quadruples[0].a, quadruples[0].b, quadruples[0].c, quadruples[0].d] := by decide

theorem test_ScheduleIsTenPermutations_witness :
    (1 : Fin 10).val = 11 % 10 ∧ sigma[(1 : Fin 10)] = sigma[(1 : Fin 10)] ∧
      ((4 : Fin 8).val / 4 = (7 : Fin 8).val / 4 ∧ (4 : Fin 8) ≠ 7) ∧
      (0 : Fin 16) ∈ [quadruples[4].a, quadruples[4].b, quadruples[4].c, quadruples[4].d] := by decide

theorem test_CompressionIsNinetySixMixes_witness :
    ∃ v : Vector Word 16, v = (List.range 96).foldl
      (fun v k => mixG v (quadruples[k % 8]'(Nat.mod_lt k (by decide)))
        (Vector.replicate 16 1)[(sigmaRow (k / 8))[2 * (k % 8)]'(by omega)]
        (Vector.replicate 16 1)[(sigmaRow (k / 8))[2 * (k % 8) + 1]'(by omega)])
      (workVector iv 128 0 false) := ⟨_, rfl⟩

theorem test_OrderInsideAGroupIsFree_witness :
    ([3, 1, 0, 2] : List (Fin 8)).Perm [0, 1, 2, 3] ∧ ([7, 6, 5, 4] : List (Fin 8)).Perm [4, 5, 6, 7] := by decide

theorem test_WordBytesRoundTrip_witness : bytesLE64 0x0123456789ABCDEF = bytesLE64 (0x0123456789ABCDEE + 1) := by decide

theorem test_InitialStateFoldsParameters_witness : 1 ≤ (1 : Fin 8).val ∧ 1 ≤ (7 : Fin 8).val := by decide

theorem test_ExtractTruncatesTheState_witness : 0 < len32.val ∧ 31 < len32.val := by decide

/-- The ends of CTR_ADD's operand. -/
theorem test_CounterAddsAndWraps_witness : 0 ≤ 128 ∧ 128 ≤ 128 := by decide

theorem test_OutputLengthIsFixedByInit_init_witness :
    (∃ t, exec (.init 0 []) freshState = .next t) ∧ (∃ t, exec (.init 64 (pat 64)) freshState = .next t) :=
  ⟨⟨_, exec_init_refused 0 [] freshState (by decide)⟩, ⟨_, exec_init_ok len64 (pat 64) freshState (by decide)⟩⟩

theorem test_InvalidParameterExactly_witness :
    (∃ t, exec (.init 65 []) freshState = .next t) ∧ (∃ t, exec (.update [0x61]) freshState = .next t) ∧
      ∃ t, exec .final freshState = .next t :=
  ⟨⟨_, exec_init_refused 65 [] freshState (by decide)⟩,
    ⟨_, exec_update_bytes [0x61] freshState (by decide) (by decide)⟩, ⟨_, exec_final_ok freshState (by decide)⟩⟩

theorem test_RepeatedInitWritesTheSame_witness :
    ∃ t u, exec (.init 64 (pat 64)) freshState = .next t ∧ exec (.init 64 (pat 64)) t = .next u :=
  ⟨_, _, exec_init_ok len64 (pat 64) freshState (by decide), exec_init_ok len64 (pat 64) _ (by decide)⟩

/-- A context in progress and a payload, with room and with a full buffer. -/
theorem test_UpdateCompletes_witness :
    (freshState.tag ≠ .finalized ∧ keyedState.tag ≠ .finalized ∧ ([0x61] : List Byte) ≠ []) ∧
      freshState.buflen.val + 1 ≤ 128 ∧ ¬ keyedState.buflen.val + 1 ≤ 128 := by decide

theorem test_EmptyUpdateChangesNothing_witness : freshState.tag ≠ .finalized := by decide

/-- Payload byte 0 goes to slot 0; slot 1 gets none. -/
theorem test_UpdateStoresPayloadBytes_witness :
    keyedState.tag ≠ .finalized ∧ (∃ t, exec (.update [0x61]) keyedState = .next t) ∧
      (0 < ([0x61] : List Byte).length ∧ ([0x61] : List Byte).length ≤ 0 + 128) ∧
      ∀ k, k < ([0x61] : List Byte).length → (keyedState.buflen.val + k) % 128 ≠ (1 : Fin 128).val :=
  ⟨by decide, ⟨_, exec_update_bytes [0x61] keyedState (by decide) (by decide)⟩, by decide, by decide⟩

theorem test_SplitUpdatesAgree_witness :
    ∃ t u w, keyedState.tag ≠ .finalized ∧ exec (.update [0x61]) keyedState = .next t ∧
      exec (.update [0x62]) t = .next u ∧ exec (.update ([0x61] ++ [0x62])) keyedState = .next w :=
  ⟨_, _, _, by decide, exec_update_bytes [0x61] keyedState (by decide) (by decide),
    exec_update_bytes [0x62] _ (by simp) (by decide), exec_update_bytes _ keyedState (by decide) (by decide)⟩

theorem test_FinalAnswersTheDigest_witness :
    freshState.tag ≠ .finalized ∧ abcState.tag ≠ .finalized ∧ State.reset.tag = .finalized :=
  ⟨by decide, by simp [abcState], rfl⟩

/-- Both sides of rule R58's condition. -/
theorem test_InvalidUsageExactly_witness :
    (∃ t, exec (.update []) State.reset = .next t ∧ t.responses = State.reset.responses ++ [⟨.invalidUsage, []⟩]) ∧
      (∃ t, exec .final State.reset = .next t ∧ t.responses = State.reset.responses ++ [⟨.invalidUsage, []⟩]) ∧
      (∃ t, exec (.update []) freshState = .next t) ∧ (∃ t, exec .final freshState = .next t) ∧
      ∃ t, exec (.init 0 []) State.reset = .next t :=
  ⟨⟨_, exec_update_refused [] State.reset rfl, rfl⟩, ⟨_, exec_final_refused State.reset rfl, rfl⟩,
    ⟨_, exec_update_empty freshState (by decide)⟩, ⟨_, exec_final_ok freshState (by decide)⟩,
    ⟨_, exec_init_refused 0 [] State.reset (by decide)⟩⟩

theorem test_NoSecondDigest_witness : ∃ t, exec .final freshState = .next t ∧ t.tag = .finalized :=
  ⟨_, exec_final_ok freshState (by decide), rfl⟩

/-- Every kind of command next in the inbox, in states where it succeeds and where it is refused. -/
theorem test_OneResponsePerCommand_witness :
    (freshState.send (.command ⟨0x00000003#32, []⟩)).inbox = .command ⟨0x00000003#32, []⟩ :: [] ∧
      decode ⟨0x00000003#32, []⟩ = .ok .final ∧ decode ⟨0x00000002#32, [0x61]⟩ ≠ .ok .final := ⟨rfl, by decide, by decide⟩

theorem test_RefusedCommandsChangeNothing_witness :
    ∃ t, step (State.reset.send (.command ⟨0x00000003#32, []⟩)) = .next t ∧
      t.responses = (State.reset.send (.command ⟨0x00000003#32, []⟩)).responses ++ [⟨.invalidUsage, []⟩] ∧
      Status.invalidUsage ≠ .ok :=
  ⟨_, (step_command_ok _ _ [] .final rfl (by decide)).trans (exec_final_refused _ rfl), rfl, by decide⟩

theorem test_FirstFailedCheckDecides_witness :
    (∀ c ∈ ([⟨0x00000102#32, []⟩, ⟨0x00000003#32, [0x00]⟩] : List Command), ¬ wellFormedPair c) ∧
      decode ⟨0x00000002#32, []⟩ = .ok (.update []) ∧ decode ⟨0x00000001#32, []⟩ = .ok (.init 0 []) := by
  refine ⟨fun c h => ?_, by decide, by decide⟩
  simp only [List.mem_cons, List.not_mem_nil, or_false] at h
  rcases h with rfl | rfl <;> unfold wellFormedPair <;> decide

/-- A step of each kind: reset, a decoded command in each tag, a pair that is no command, nothing to do. -/
theorem test_TagTransitions_witness :
    (∃ t, step (freshState.send .reset) = .next t) ∧
      (∃ t, step (freshState.send (.command ⟨0x00000002#32, [0x61]⟩)) = .next t ∧ freshState.tag = .fresh) ∧
      (∃ t, step (abcState.send (.command ⟨0x00000002#32, []⟩)) = .next t ∧ abcState.tag = .active) ∧
      (∃ t, step (State.reset.send (.command ⟨0x00000002#32, []⟩)) = .next t ∧ State.reset.tag = .finalized) ∧
      (∃ t, step (freshState.send (.command ⟨0x00000004#32, []⟩)) = .next t ∧
        decode ⟨0x00000004#32, []⟩ = .error .reservedOpcode) ∧ ∃ t, step freshState = .next t :=
  ⟨⟨_, step_reset _ [] rfl⟩,
    ⟨_, (step_command_ok _ _ [] (.update [0x61]) rfl (by decide)).trans
      (exec_update_bytes [0x61] _ (by simp [freshState]) (by decide)), rfl⟩,
    ⟨_, (step_command_ok _ _ [] (.update []) rfl (by decide)).trans (exec_update_empty _ (by simp [abcState])), rfl⟩,
    ⟨_, (step_command_ok _ _ [] (.update []) rfl (by decide)).trans (exec_update_refused [] _ rfl), rfl⟩,
    ⟨_, step_command_illegal _ _ [] .reservedOpcode rfl (by decide), by decide⟩, ⟨_, step_idle _ rfl⟩⟩

theorem test_OutputLengthIsFixedByInit_witness :
    ∃ t, step (freshState.send (.command ⟨0x00000002#32, []⟩)) = .next t ∧ t.tag ≠ .finalized ∧
      ∀ c rest nn key, (freshState.send (.command ⟨0x00000002#32, []⟩)).inbox = .command c :: rest →
        decode c ≠ .ok (.init nn key) := by
  refine ⟨_, (step_command_ok _ _ [] (.update []) rfl (by decide)).trans (exec_update_empty _ (by simp [freshState])),
    by simp [freshState], ?_⟩
  intro c rest nn key h
  have hc : c = ⟨0x00000002#32, []⟩ := by
    have head : (Event.command ⟨0x00000002#32, []⟩ : Event) = .command c := (List.cons.inj h).1
    injection head with same
    exact same.symm
  subst hc
  have upd : decode ⟨0x00000002#32, []⟩ = .ok (.update []) := by decide
  rw [upd]
  intro bad
  cases bad

theorem test_ErrorsLeaveNoTrace_witness :
    ∃ t, step (abcState.send (.command ⟨0x00000001#32, []⟩)) = .next t ∧
      t.responses = abcState.responses ++ [⟨.invalidParameter, []⟩] ∧ Status.invalidParameter ≠ .ok :=
  ⟨_, (step_command_ok _ _ [] (.init 0 []) rfl (by decide)).trans (exec_init_refused 0 [] _ (by decide)), rfl, by decide⟩

/-! ### Contexts that have accepted something -/

/-- Nothing accepted, no key: `BUFLEN = 0`. -/
theorem test_Accepted_nothing_witness : Accepted [] [] freshState where
  key_le := by decide
  h_eq := by decide +kernel
  counter_eq := by decide +kernel
  buflen_eq := by decide +kernel
  buf_eq := by decide +kernel
  fresh_iff := by decide

/-- The key block waits: `BUFLEN = 128`. -/
theorem test_Accepted_key_witness : Accepted (pat 64) [] keyedState where
  key_le := by decide
  h_eq := by decide +kernel
  counter_eq := by decide +kernel
  buflen_eq := by decide +kernel
  buf_eq := by decide +kernel
  fresh_iff := by decide

/-- The message `abc`. -/
theorem test_Accepted_abc_witness : Accepted [] [0x61, 0x62, 0x63] abcState where
  key_le := by decide
  h_eq := by decide +kernel
  counter_eq := by decide +kernel
  buflen_eq := by decide +kernel
  buf_eq := by decide +kernel
  fresh_iff := by simp [abcState]

/-- A keyed context after one message byte: one block compressed. -/
theorem test_Accepted_compressed_witness : Accepted (pat 64) [0x00] ((keyedState.absorb 0).setTag .active) where
  key_le := by decide
  h_eq := by decide +kernel
  counter_eq := by decide +kernel
  buflen_eq := by decide +kernel
  buf_eq := by decide +kernel
  fresh_iff := by simp

theorem test_AcceptedStreamFillsTheBuffer_witness :
    Accepted [] [] freshState ∧ freshState.buflen.val = 0 ∧ Accepted (pat 64) [] keyedState ∧ keyedState.buflen.val = 128 :=
  ⟨test_Accepted_nothing_witness, rfl, test_Accepted_key_witness, by decide⟩

theorem test_CommandsAcceptTheStream_witness : abcState.tag ≠ .finalized ∧ Accepted [] [0x61, 0x62, 0x63] abcState :=
  ⟨by simp [abcState], test_Accepted_abc_witness⟩

/-- What the host sends next does not change what was accepted. -/
theorem accepted_send {key input : List Byte} {s : State} (e : Event) (h : Accepted key input s) :
    Accepted key input (s.send e) :=
  ⟨h.key_le, h.h_eq, h.counter_eq, h.buflen_eq, h.buf_eq, h.fresh_iff⟩

theorem test_StepKeepsTheContextInvariant_witness :
    (ContextInv (abcState.send .reset) ∧ ∃ t, step (abcState.send .reset) = .next t) ∧
      ContextInv freshState ∧ ∃ t, step freshState = .next t :=
  ⟨⟨fun _ => ⟨[], _, accepted_send .reset test_Accepted_abc_witness⟩, _, step_reset _ [] (State.send_inbox ..)⟩,
    fun _ => ⟨[], [], test_Accepted_nothing_witness⟩, _, step_idle _ rfl⟩

theorem test_ChunksCoverTheStream_witness :
    ([0x61] : List Byte) ≠ [] ∧ pat 128 ∈ fullChunks (pat 129) := by decide +kernel

theorem test_StreamingEqualsOneShot_witness :
    ({ State.reset with inbox := hashCommands 64 (pat 64) [[0x61], [], [0x62, 0x63]] ++ [.reset] } : State).inbox =
        hashCommands 64 (pat 64) [[0x61], [], [0x62, 0x63]] ++ [.reset] ∧ (pat 64).length ≤ 64 := ⟨rfl, by decide⟩

/-- With an empty buffer, its bytes may be any. -/
theorem indistinguishable_buf (s : State) (empty : s.buflen.val = 0) (b : Vector Byte 128) :
    Indistinguishable s { s with buf := b, draws := 7 } :=
  ⟨rfl, rfl, fun _ => ⟨rfl, rfl, rfl, rfl, rfl, by simp [empty]⟩⟩

/-- Two different states that agree up to the fill level and take the same step. -/
theorem test_IndistinguishableStatesStaySo_witness :
    Indistinguishable freshState { freshState with buf := Vector.replicate 128 0xFF, draws := 7 } ∧
      freshState.buf[0] ≠ (Vector.replicate 128 0xFF : Vector Byte 128)[0] ∧ (∃ t, step freshState = .next t) ∧
      ∃ t, step { freshState with buf := Vector.replicate 128 0xFF, draws := 7 } = .next t :=
  ⟨indistinguishable_buf _ rfl _, by decide, ⟨_, step_idle _ rfl⟩, ⟨_, step_idle _ rfl⟩⟩

theorem test_InitForgetsThePast_witness : State.reset.inbox = abcState.inbox := rfl

/-- Two states and two payloads of one shape whose bytes differ. -/
theorem test_ControlIgnoresData_witness :
    (abcState.tag = abcState.tag ∧ abcState.buflen = { abcState with buf := Vector.replicate 128 0xFF }.buflen) ∧
      ([0x64] : List Byte).length = ([0x65] : List Byte).length ∧ (∃ t, exec (.update [0x64]) abcState = .next t) ∧
      ∃ t, exec (.update [0x65]) { abcState with buf := Vector.replicate 128 0xFF } = .next t :=
  ⟨⟨rfl, rfl⟩, rfl, ⟨_, exec_update_bytes [0x64] abcState (by simp [abcState]) (by decide)⟩,
    ⟨_, exec_update_bytes [0x65] _ (by simp [abcState]) (by decide)⟩⟩

theorem test_InstancesRunAsIfAlone_witness : [State.reset, abcState][1]? = some abcState := rfl

theorem test_HexPrintsTwoDigitsPerByte_witness : hex [0xba, 0x0f] = hex [0xba, 0x0e + 1] := by decide

end Sys2Proof.Tests
end

section
/-! SUPPORT. The transitions of the state tag (rule R10): what each kind of step does to `TAG`, then the whole table. -/

namespace Sys2Proof.Machine

/-! ### The tag after a command that decodes -/

/-- INIT starts a Fresh context exactly on legal parameters (rules R10, R46). -/
theorem exec_init_tag {nn : Nat} {key : List Byte} {s t : State} (run : exec (.init nn key) s = .next t) :
    t.tag = if 1 ≤ nn ∧ nn ≤ 64 ∧ key.length ≤ 64 then .fresh else s.tag := by
  rcases exec_init_cases nn key s with ⟨n, rfl, short, ok⟩ | ⟨out, refused⟩
  · obtain rfl := next_injective (ok.symm.trans run)
    simp [n.one_le, n.le_64, short]
  · obtain rfl := next_injective (refused.symm.trans run)
    rw [if_neg out, State.raise_tag]

/-- UPDATE writes the tag only when it takes message bytes into a context in progress (rules R10, R47). -/
theorem exec_update_tag {data : List Byte} {s t : State} (run : exec (.update data) s = .next t) :
    t.tag = if s.tag = .finalized ∨ data = [] then s.tag else .active := by
  rcases exec_update_cases data s with ⟨fin, refused⟩ | ⟨-, empty, kept⟩ | ⟨live, some, taken⟩
  · obtain rfl := next_injective (refused.symm.trans run)
    rw [if_pos (.inl fin), State.raise_tag]
  · obtain rfl := next_injective (kept.symm.trans run)
    rw [if_pos (.inr empty), State.respond_tag]
  · obtain rfl := next_injective (taken.symm.trans run)
    rw [if_neg (not_or.mpr ⟨live, some⟩), State.respond_tag, State.setTag_tag]

/-- FINAL ends the computation, or finds it ended (rules R10, R48). -/
theorem exec_final_tag {s t : State} (run : exec .final s = .next t) : t.tag = .finalized := by
  rcases exec_final_cases s with ⟨fin, refused⟩ | ⟨-, ok⟩
  · obtain rfl := next_injective (refused.symm.trans run)
    rw [State.raise_tag, fin]
  · obtain rfl := next_injective (ok.symm.trans run)
    rw [State.respond_tag, State.discard_tag]

/-! ### The tag after an event that runs no instruction -/

/-- A reset between two commands ends the computation (rules R67, R68). -/
theorem step_reset_tag {s t : State} {rest : List Event} (head : s.inbox = .reset :: rest) (next : step s = .next t) :
    t.tag = .finalized := by
  obtain rfl := next_injective ((step_reset s rest head).symm.trans next)
  exact State.discard_tag _

/-- A pair that is no command does not touch the tag (rules R10, R60). -/
theorem step_illegal_tag {s t : State} {c : Command} {rest : List Event} {e : Illegal}
    (head : s.inbox = .command c :: rest) (illegal : decode c = .error e) (next : step s = .next t) :
    t.tag = s.tag := by
  obtain rfl := next_injective ((step_command_illegal s c rest e head illegal).symm.trans next)
  rw [State.raise_tag]

/-! ### The table -/

/-- Settles O40: each row of rule R10's table is one of the lemmas above, read at the instruction the step runs. -/
theorem tagTransitions : Obligations.TagTransitions := by
  refine ⟨⟨rfl, rfl, rfl⟩, fun s t next => ⟨fun rest head => step_reset_tag head next, fun c rest head => ?_⟩⟩
  have run {i : Instr} (hd : decode c = .ok i) : exec i { s with inbox := rest } = .next t :=
    (step_command_ok s c rest i head hd).symm.trans next
  have update {data : List Byte} (hd : decode c = .ok (.update data)) :
      t.tag = if s.tag = .finalized ∨ data = [] then s.tag else .active :=
    exec_update_tag (s := { s with inbox := rest }) (run hd)
  refine ⟨fun nn key hd => exec_init_tag (s := { s with inbox := rest }) (run hd), fun data hd fresh => ?_,
    fun data hd active => ?_, fun hd => exec_final_tag (run hd), fun data hd finalized => ?_,
    fun e hd => step_illegal_tag head hd next⟩
  · simpa [fresh] using update hd
  · simpa [active] using update hd
  · simpa [finalized] using update hd

end Sys2Proof.Machine
end

section
/-! SUPPORT. The words of a block (rule R13): which bytes `loadM` reads for each word, and the value they give. -/

namespace Sys2Proof.Machine

/-- LOADM reads word `i` from the eight bytes that start at `8i` (rule R13). -/
theorem loadM_getElem (b : Vector Byte 128) (i : Nat) (hi : i < 16) :
    (loadM b)[i] = le64 b[8 * i] b[8 * i + 1] b[8 * i + 2] b[8 * i + 3] b[8 * i + 4] b[8 * i + 5] b[8 * i + 6]
      b[8 * i + 7] := by
  rw [loadM, Vector.getElem_ofFn]

/-- Settles O17: word `i` is `LE64` of the eight bytes from `8i` on, and `le64_toNat` gives its value. -/
theorem blockWordsAreLittleEndian : Obligations.BlockWordsAreLittleEndian := by
  intro b i
  rw [Fin.getElem_fin, loadM_getElem b i.val i.isLt, le64_toNat]

end Sys2Proof.Machine
end

section
/-! SUPPORT. The opcode map (rules R21, R22, R23) read field by field, and the well-formed pairs (rule R27): exactly the
ones that decode, all others refused without a trace. -/

namespace Sys2Proof

/-! ### The fields of a header that agrees with a row's match under its mask -/

/-- A field that the mask covers whole is the match's. -/
theorem field_eq_of_masked {hdr mask pattern : Header} (agrees : hdr &&& mask = pattern) (start len : Nat)
    (covered : mask.extractLsb' start len = BitVec.allOnes len) :
    hdr.extractLsb' start len = pattern.extractLsb' start len := by
  rw [← agrees, BitVec.extractLsb'_and, covered, BitVec.and_allOnes]

/-- INIT's mask leaves `NN` free (rule R21). -/
theorem fields_of_init_row {hdr : Header} (agrees : hdr &&& 0xFFFF00FF#32 = 0x00000001#32) :
    rsvField hdr = 0 ∧ opField hdr = 0x01 :=
  ⟨field_eq_of_masked agrees 16 16 rfl, field_eq_of_masked agrees 0 8 rfl⟩

/-- The masks of UPDATE and FINAL fix all three fields (rules R22, R23). -/
theorem fields_of_full_mask {hdr pattern : Header} (agrees : hdr &&& 0xFFFFFFFF#32 = pattern) :
    rsvField hdr = rsvField pattern ∧ opField hdr = opField pattern ∧ nnField hdr = nnField pattern :=
  ⟨field_eq_of_masked agrees 16 16 rfl, field_eq_of_masked agrees 0 8 rfl, field_eq_of_masked agrees 8 8 rfl⟩

/-- A header that matches a row has the row's opcode: every mask of the map covers `OP`. -/
theorem opField_of_hits {r : OpcodeRow} {hdr : Header} (row : r ∈ opcodeRows) (hit : r.hits hdr = true) :
    opField hdr = opField r.pattern := by
  have covered : ∀ r ∈ opcodeRows, opField r.mask = BitVec.allOnes 8 := by decide
  exact field_eq_of_masked (eq_of_beq hit) 0 8 (covered r row)

/-- The rows of the opcode map have different opcodes, so no header matches two. -/
theorem row_eq_of_hits {r r' : OpcodeRow} {hdr : Header} (row : r ∈ opcodeRows) (row' : r' ∈ opcodeRows)
    (hit : r.hits hdr = true) (hit' : r'.hits hdr = true) : r = r' := by
  have distinct : ∀ r ∈ opcodeRows, ∀ r' ∈ opcodeRows, opField r.pattern = opField r'.pattern → r = r' := by decide
  exact distinct r row r' row' ((opField_of_hits row hit).symm.trans (opField_of_hits row' hit'))

end Sys2Proof

namespace Sys2Proof.Machine

/-- Settles O3: the masks give the fields that the decoder's cases ask for, and the opcode tells the rows apart. -/
theorem opcodeRowsDecode : Obligations.OpcodeRowsDecode := by
  refine ⟨fun hdr P agrees => ?_, fun hdr P agrees => ?_, fun hdr agrees => ?_,
    fun hdr r r' row row' hit hit' => row_eq_of_hits row row' hit hit',
    fun nn P s out => exec_init_refused nn P s (by omega)⟩
  · obtain ⟨rsv, op⟩ := fields_of_init_row agrees
    exact decode_init hdr P rsv op
  · obtain ⟨rsv, op, nn⟩ := fields_of_full_mask agrees
    exact decode_update hdr P rsv op nn
  · obtain ⟨rsv, op, nn⟩ := fields_of_full_mask agrees
    exact ⟨decode_final hdr rsv op nn, fun P some => decode_payloadOnFinal hdr P rsv op nn some⟩

/-! ### Well-formed pairs (rule R27) -/

/-- What the decoder accepts is well formed. -/
theorem wellFormedPair_of_decode_ok {c : Command} {i : Instr} (hd : decode c = .ok i) : wellFormedPair c := by
  obtain ⟨rsv, ⟨op, -⟩ | ⟨op, nn, -⟩ | ⟨op, nn, none, -⟩⟩ := decode_ok_cases c i hd
  · exact .inl ⟨rsv, op⟩
  · exact .inr (.inl ⟨rsv, nn, op⟩)
  · exact .inr (.inr ⟨rsv, nn, op, List.length_eq_zero_iff.mpr none⟩)

/-- The decoder accepts every well-formed pair, each disjunct of the formula as one instruction. -/
theorem decode_ok_of_wellFormedPair {c : Command} (wf : wellFormedPair c) : ∃ i, decode c = .ok i := by
  obtain ⟨hdr, P⟩ := c
  obtain ⟨rsv, op⟩ | ⟨rsv, nn, op⟩ | ⟨rsv, nn, op, none⟩ := wf
  · exact ⟨_, decode_init hdr P rsv op⟩
  · exact ⟨_, decode_update hdr P rsv op nn⟩
  · obtain rfl := List.length_eq_zero_iff.mp none
    exact ⟨_, decode_final hdr rsv op nn⟩

/-- A pair that is not well formed is answered IllegalCommand before anything else is looked at (rules R59, R61). -/
theorem step_of_not_wellFormedPair {s : State} {c : Command} {rest : List Event} (head : s.inbox = .command c :: rest)
    (ill : ¬ wellFormedPair c) : step s = .next (({ s with inbox := rest } : State).raise .illegalCommand) := by
  cases hd : decode c with
  | error e => exact step_command_illegal s c rest e head hd
  | ok i => exact absurd (wellFormedPair_of_decode_ok hd) ill

/-- Raising an error writes no state element (rule R60), and taking the command out of the inbox writes none either. -/
theorem sameElements_raise (s : State) (rest : List Event) (e : Status) :
    s.sameElements (({ s with inbox := rest } : State).raise e) := by
  simp [State.sameElements]

/-- Settles O4: the formula of rule R27 is the decoder's domain, and a pair outside it only raises IllegalCommand. -/
theorem illegalPairsAreRefused : Obligations.IllegalPairsAreRefused := by
  refine ⟨fun c => ⟨fun ⟨_, hd⟩ => wellFormedPair_of_decode_ok hd, decode_ok_of_wellFormedPair⟩, rfl,
    fun s c rest head ill => ⟨_, step_of_not_wellFormedPair head ill, ?_, sameElements_raise s rest _, ?_, ?_⟩⟩
  · rw [State.raise_responses]
  · rw [State.raise_inbox]
  · rw [State.raise_draws]

end Sys2Proof.Machine
end

section
/-! SUPPORT. The word operations ADD64, XOR64, NOT64 and ROTR64 (rules R28 to R30), by value or bit by bit. -/

namespace Sys2Proof.Machine

/-! ### ADD64 (rule R28) -/

theorem add64_toNat (x y : Word) : (add64 x y).toNat = (x.toNat + y.toNat) % 2 ^ 64 := BitVec.toNat_add x y

/-- The inner sum may wrap: the outer one loses no more than a single reduction does. -/
theorem add64_add64_toNat (x y z : Word) :
    (add64 (add64 x y) z).toNat = (x.toNat + y.toNat + z.toNat) % 2 ^ 64 := by
  rw [add64_toNat, add64_toNat, Nat.mod_add_mod]

/-- Settles O8: ADD64 is the addition of 64-bit words, whose value is the sum reduced once. -/
theorem add64IsModular : Obligations.Add64IsModular :=
  ⟨add64_toNat, BitVec.add_comm, BitVec.add_assoc, add64_add64_toNat⟩

/-! ### XOR64 and NOT64 (rule R29) -/

theorem xor64_getLsbD (x y : Word) (i : Nat) : (xor64 x y).getLsbD i = (x.getLsbD i ^^ y.getLsbD i) :=
  BitVec.getLsbD_xor

/-- Exclusive or of two bits is their sum without the carry. -/
theorem toNat_bxor (a b : Bool) : (a ^^ b).toNat = (a.toNat + b.toNat) % 2 := by
  cases a <;> cases b <;> rfl

/-- The mask of NOT64 has every bit set. -/
theorem not64_eq_not (x : Word) : not64 x = ~~~x := BitVec.xor_allOnes

theorem not64_getLsbD (x : Word) (i : Nat) (hi : i < 64) : (not64 x).getLsbD i = !(x.getLsbD i) := by
  rw [not64_eq_not, BitVec.getLsbD_not, decide_eq_true hi, Bool.true_and]

/-- Settles O9: a bit of XOR64 is a sum without carry, and NOT64 is XOR64 with the word of ones. -/
theorem xor64IsBitwise : Obligations.Xor64IsBitwise := by
  refine ⟨fun x y i _ => ?_, not64_getLsbD, fun _ => rfl⟩
  rw [xor64_getLsbD, toNat_bxor]

/-! ### ROTR64 (rule R30) -/

/-- Below the top `n` bits the rotation shows the shifted word, and in them the `n` low bits that fell out. -/
theorem rotr64_getLsbD (x : Word) (n : Nat) (hn : n < 64) (i : Nat) (hi : i < 64) :
    (rotr64 x n).getLsbD i = x.getLsbD ((i + n) % 64) := by
  rw [rotr64, BitVec.getLsbD_rotateRight, Nat.mod_eq_of_lt hn]
  by_cases low : i < 64 - n
  · have inside : (i + n) % 64 = n + i := by omega
    rw [inside, decide_eq_true low, cond_true]
  · have wrapped : (i + n) % 64 = i - (64 - n) := by omega
    rw [wrapped, decide_eq_false low, cond_false, decide_eq_true hi, Bool.true_and]

/-- The two shifts of a rotation share no bit: the right shift has only zeros from bit `64 - n` on, the left shift only
zeros below it. -/
theorem shifts_disjoint (x : Word) (n : Nat) : x >>> n &&& x <<< (64 - n) = 0#64 := by
  apply BitVec.eq_of_getLsbD_eq
  intro i hi
  rw [BitVec.getLsbD_and, BitVec.getLsbD_ushiftRight, BitVec.getLsbD_shiftLeft, BitVec.getLsbD_zero]
  by_cases low : i < 64 - n
  · simp [low]
  · rw [BitVec.getLsbD_of_ge x (n + i) (by omega), Bool.false_and]

/-- Rule R30 adds the two shifts: no carry arises, as they share no bit. -/
theorem rotr64_eq_add (x : Word) (n : Nat) (hn : n < 64) : rotr64 x n = x >>> n + x <<< (64 - n) := by
  rw [rotr64, BitVec.rotateRight_def, Nat.mod_eq_of_lt hn, BitVec.add_eq_or_of_and_eq_zero _ _ (shifts_disjoint x n)]

theorem rotr64_toNat (x : Word) (n : Nat) (hn : n < 64) :
    (rotr64 x n).toNat = ((x.toNat >>> n) + (x.toNat <<< (64 - n))) % 2 ^ 64 := by
  rw [rotr64_eq_add x n hn, BitVec.toNat_add, BitVec.toNat_ushiftRight, BitVec.toNat_shiftLeft, Nat.add_mod_mod]

/-- Rotation by 0 moves no bit. -/
theorem rotr64_zero (x : Word) : rotr64 x 0 = x := by
  apply BitVec.eq_of_getLsbD_eq
  intro i hi
  rw [rotr64_getLsbD x 0 (by decide) i hi, Nat.add_zero, Nat.mod_eq_of_lt hi]

/-- Settles O10: bit by bit, and as the sum of two shifts that share no bit. -/
theorem rotr64RotatesRight : Obligations.Rotr64RotatesRight := by
  intro x n le
  have hn : n < 64 := by omega
  refine ⟨rotr64_getLsbD x n hn, fun _ => rotr64_toNat x n hn, ?_⟩
  rintro rfl
  exact rotr64_zero x

end Sys2Proof.Machine
end

section
/-! SUPPORT. The work vector at the start of F (rule R37), part by part: the state, the IV words that stay as they are, and
the three words that the counter and the Finalization Flag enter. -/

namespace Sys2Proof.Machine

/-- The low half is the state: the counter and the flag enter the high half only. -/
theorem workVector_state (h : Vector Word 8) (t0 t1 : Word) (f : Bool) (i : Nat) (hi : i < 8) :
    (workVector h t0 t1 f)[i] = h[i] := by
  have h14 : i ≠ 14 := by omega
  have h13 : i ≠ 13 := by omega
  have h12 : i ≠ 12 := by omega
  rw [workVector_getElem h t0 t1 f i (by omega), if_neg h14, if_neg h13, if_neg h12, dif_pos hi]

/-- The high half is the IV, but for words 12 to 14. -/
theorem workVector_iv (h : Vector Word 8) (t0 t1 : Word) (f : Bool) (i : Nat) (hi : i < 8)
    (kept : i ≠ 4 ∧ i ≠ 5 ∧ i ≠ 6) : (workVector h t0 t1 f)[i + 8] = iv[i] := by
  have h14 : i + 8 ≠ 14 := by omega
  have h13 : i + 8 ≠ 13 := by omega
  have h12 : i + 8 ≠ 12 := by omega
  have high : ¬ i + 8 < 8 := by omega
  rw [workVector_getElem h t0 t1 f (i + 8) (by omega), if_neg h14, if_neg h13, if_neg h12, dif_neg high]
  rfl

/-- The counter's low word enters word 12. -/
theorem workVector_counterLow (h : Vector Word 8) (t0 t1 : Word) (f : Bool) :
    (workVector h t0 t1 f)[12] = iv[4] ^^^ t0 := by
  rw [workVector_getElem, if_neg (by decide), if_neg (by decide), if_pos rfl]

/-- The counter's high word enters word 13. -/
theorem workVector_counterHigh (h : Vector Word 8) (t0 t1 : Word) (f : Bool) :
    (workVector h t0 t1 f)[13] = iv[5] ^^^ t1 := by
  rw [workVector_getElem, if_neg (by decide), if_pos rfl]

/-- The Finalization Flag decides word 14 alone (rules R37, R41). -/
theorem workVector_finalization (h : Vector Word 8) (t0 t1 : Word) (f : Bool) :
    (workVector h t0 t1 f)[14] = finalizationWord f iv[6] := by
  rw [workVector_getElem, if_pos rfl]

/-- Settles O14: the sixteen words part by part; what the flag does to word 14 is `finalizationWord`. -/
theorem workVectorAtStart : Obligations.WorkVectorAtStart := by
  intro h t0 t1 f
  refine ⟨fun i => workVector_state h t0 t1 f i.val i.isLt,
    fun i => workVector_iv h t0 t1 f i.val (by omega) (by omega),
    workVector_counterLow h t0 t1 f, workVector_counterHigh h t0 t1 f, ?_,
    workVector_iv h t0 t1 f 7 (by decide) (by decide)⟩
  rw [workVector_finalization, finalizationWord, not64]

end Sys2Proof.Machine
end

section
/-! SUPPORT. The block processor's operations by themselves: CTR_ADD word by word, PAD and INIT's block byte by byte,
and the digest FINAL answers (rules R43, R44, R46, R48). -/

namespace Sys2Proof.Machine

/-! ### CTR_ADD (rule R43) -/

/-- Settles O22: the counter as one number is `ctrAdd_counter`, and an operand of at most 128 carries at most 1. -/
theorem counterAddsAndWraps : Obligations.CounterAddsAndWraps := by
  intro s n le
  have low := s.t0.isLt
  refine ⟨s.ctrAdd_counter n, ?_, ?_, by omega, rfl⟩
  · rw [State.ctrAdd_t0, BitVec.toNat_ofNat]
  · rw [State.ctrAdd_t1, BitVec.toNat_ofNat]

/-! ### PAD (rule R44) -/

/-- A byte of the padded buffer: zero from the fill level on. -/
theorem State.pad_buf_getElem (s : State) (i : Nat) (hi : i < 128) :
    s.pad.buf[i] = if s.buflen.val ≤ i then 0x00#8 else s.buf[i] := by
  simp only [State.pad_buf, Vector.getElem_mapIdx]
  by_cases tail : s.buflen.val ≤ i
  · rw [if_pos tail, if_neg (Nat.not_lt.mpr tail)]
    rfl
  · rw [if_neg tail, if_pos (Nat.lt_of_not_le tail)]

/-- Settles O23: byte by byte, and PAD writes the buffer alone. -/
theorem padZeroesTheTail : Obligations.PadZeroesTheTail :=
  fun s => ⟨fun i => s.pad_buf_getElem i.val i.isLt, rfl⟩

/-! ### The zero-padded block (rules R44, R46, R49) -/

/-- A byte of a zero-padded block. -/
theorem blockOf_getElem (bytes : List Byte) (i : Nat) (hi : i < 128) :
    (blockOf bytes)[i] = if inside : i < bytes.length then bytes[i] else 0x00#8 := by
  rw [blockOf, Vector.getElem_ofFn]
  by_cases inside : i < bytes.length
  · rw [dif_pos inside, List.getD_eq_getElem _ _ inside]
  · rw [dif_neg inside, List.getD_eq_default _ _ (Nat.le_of_not_lt inside)]
    rfl

/-- Zeros at the end of the bytes are what the padding writes there anyway. -/
theorem blockOf_append_zeros (bytes : List Byte) (n : Nat) : blockOf (bytes ++ List.replicate n 0) = blockOf bytes := by
  apply Vector.ext
  intro i hi
  simp only [blockOf_getElem, List.length_append, List.length_replicate, List.getElem_append, List.getElem_replicate]
  by_cases inside : i < bytes.length
  · have longer : i < bytes.length + n := by omega
    rw [dif_pos longer, dif_pos inside, dif_pos inside]
  · simp [inside]

/-- The bytes a block was made of are its first bytes. -/
theorem take_blockOf (bytes : List Byte) (short : bytes.length ≤ 128) :
    (blockOf bytes).toList.take bytes.length = bytes := by
  apply List.ext_getElem
  · simp [short]
  · intro i _ inside
    have hi : i < 128 := by omega
    rw [List.getElem_take, Vector.getElem_toList, blockOf_getElem bytes i hi, dif_pos inside]

/-! ### INIT (rule R46) -/

/-- Settles O25: the context of rule R46 element by element, its buffer byte by byte; the parameters outside the ranges
are refused by `exec_init_refused`. -/
theorem initBuildsTheContext : Obligations.InitBuildsTheContext := by
  refine ⟨fun nn key s ge le short => ?_, fun nn key s out => ?_⟩
  · refine ⟨_, exec_init_ok ⟨nn, ge, le⟩ key s short, rfl, rfl, rfl, rfl,
      fun i => blockOf_getElem key i.val i.isLt, ?_, rfl, rfl, rfl, rfl⟩
    rw [State.respond_buflen, State.startContext_buflen]
    by_cases none : key = []
    · simp [none]
    · rw [if_neg none, if_pos (List.length_pos_iff.mpr none)]
      rfl
  · exact ⟨_, exec_init_refused nn key s (by omega), sameElements_raise s s.inbox _, rfl, rfl, rfl⟩

/-! ### FINAL (rule R48) -/

/-- Settles O33: the digest is read from the state after `lastBlock`, which `lastBlock_h` gives as one chunk of
rule R49. -/
theorem finalAnswersTheDigest : Obligations.FinalAnswersTheDigest := by
  refine ⟨fun s live => ⟨_, exec_final_ok s live, rfl, ?_, rfl, rfl⟩,
    fun s fin => ⟨_, exec_final_refused s fin, sameElements_raise s s.inbox _, rfl, rfl, rfl⟩⟩
  rw [State.respond_responses, State.discard_responses, State.lastBlock_responses, State.lastBlock_h,
    State.lastBlock_outlen, State.waiting_eq]

end Sys2Proof.Machine
end

section
/-! SUPPORT. What a context in progress owes the stream it has accepted (rules R8, R49), command by command: INIT starts
the stream, UPDATE extends it, FINAL answers its hash. -/

namespace Sys2Proof.Machine

/-! ### The accepted stream -/

/-- Answering a command does not change what was accepted. -/
theorem Accepted.respond {key input : List Byte} {s : State} (acc : Accepted key input s) (st : Status)
    (d : List Byte) : Accepted key input (s.respond st d) :=
  ⟨acc.key_le, acc.h_eq, acc.counter_eq, acc.buflen_eq, acc.buf_eq, acc.fresh_iff⟩

/-- What the host sends next does not change what was accepted. -/
theorem Accepted.setInbox {key input : List Byte} {s : State} (acc : Accepted key input s) (es : List Event) :
    Accepted key input { s with inbox := es } :=
  ⟨acc.key_le, acc.h_eq, acc.counter_eq, acc.buflen_eq, acc.buf_eq, acc.fresh_iff⟩

/-- The bytes waiting in the buffer are the stream's last chunk (rule R8). -/
theorem Accepted.waiting_eq {key input : List Byte} {s : State} (acc : Accepted key input s) :
    s.waiting = lastChunk (stream key input) := acc.buf_eq

/-- The hash state and the counter, as the pair that rule R49 folds over the chunks before the last. -/
theorem Accepted.hash_eq {key input : List Byte} {s : State} (acc : Accepted key input s) :
    (s.h, s.counter) = hashChunks (initialState s.outlen.val key.length) (fullChunks (stream key input)) :=
  Prod.ext acc.h_eq acc.counter_eq

/-- A stream without input is the key block, or empty (rule R49). -/
theorem stream_nil_length (key : List Byte) (short : key.length ≤ 64) :
    (stream key []).length = if key = [] then 0 else 128 := by
  by_cases none : key = []
  · simp [stream, none]
  · simp [stream, none]
    omega

/-- INIT's buffer holds the stream without input: padding the key block once more adds nothing (rules R46, R49). -/
theorem blockOf_stream_nil (key : List Byte) : blockOf (stream key []) = blockOf key := by
  by_cases none : key = []
  · simp [stream, none]
  · rw [stream, if_neg none, List.append_nil, blockOf_append_zeros]

/-- INIT starts a context that has accepted its key and no input: at most one block, and it waits (rule R46). -/
theorem accepted_startContext (s : State) (nn : OutLen) (key : List Byte) (short : key.length ≤ 64) :
    Accepted key [] (s.startContext nn key) := by
  have len : (s.startContext nn key).buflen.val = (stream key []).length := by
    rw [State.startContext_buflen, stream_nil_length key short]
    split <;> rfl
  have oneChunk : (stream key []).length ≤ 128 := by
    rw [← len]
    omega
  constructor
  · exact short
  · rw [fullChunks_short _ oneChunk]
    rfl
  · rw [fullChunks_short _ oneChunk]
    rfl
  · rw [lastChunk_short _ oneChunk, len]
  · rw [lastChunk_short _ oneChunk, len, State.startContext_buf, ← blockOf_stream_nil, take_blockOf _ oneChunk]
  · exact ⟨fun _ => rfl, fun _ => rfl⟩

/-- Message bytes extend the accepted stream: what was waiting and the payload are cut into the chunks that the longer
stream has after those already compressed (rules R47, R51). -/
theorem Accepted.absorbAll {key input : List Byte} {s : State} (acc : Accepted key input s) (data : List Byte)
    (some : data ≠ []) : Accepted key (input ++ data) ((data.foldl State.absorb s).setTag .active) := by
  obtain ⟨hash, waiting⟩ := s.absorbAll_chunks data
  obtain ⟨outlen, -⟩ := State.absorbAll_frame data s
  obtain ⟨full, last⟩ := chunks_resume (stream key input) data
  rw [acc.waiting_eq] at hash waiting
  rw [← stream_append] at full last
  have folded : ((data.foldl State.absorb s).h, (data.foldl State.absorb s).counter) =
      hashChunks (initialState s.outlen.val key.length) (fullChunks (stream key (input ++ data))) := by
    rw [hash, acc.hash_eq, full, hashChunks, hashChunks, List.foldl_append]
  constructor
  · exact acc.key_le
  · rw [State.setTag_h, State.setTag_outlen, outlen, ← folded]
  · rw [State.setTag_counter, State.setTag_outlen, outlen, ← folded]
  · rw [State.setTag_buflen, last, ← waiting, State.waiting_length]
  · exact waiting.trans last.symm
  · simp [some]

/-- FINAL's compression ends in the state that `hash` reads the digest from (rules R48, R49). -/
theorem Accepted.lastBlock_h {key input : List Byte} {s : State} (acc : Accepted key input s) :
    s.lastBlock.h = hashState s.outlen.val key.length (stream key input) := by
  rw [State.lastBlock_h, acc.waiting_eq, acc.buflen_eq, acc.h_eq, acc.counter_eq, hashState]

/-! ### Each command on an accepted stream -/

/-- `hash` on legal parameters (rule R49). -/
theorem hash_ok (input : List Byte) (nn : OutLen) (key : List Byte) (short : key.length ≤ 64) :
    hash input nn.val key = .ok (extract (hashState nn.val key.length (stream key input)) nn) := by
  rw [hash, dif_pos ⟨nn.one_le, nn.le_64⟩, if_pos short]

/-- INIT on legal parameters starts a context that has accepted its key and no input (rules R8, R46). -/
theorem exec_init_accepted (nn : OutLen) (key : List Byte) (s : State) (short : key.length ≤ 64) :
    ∃ t, exec (.init nn.val key) s = .next t ∧ t.tag ≠ .finalized ∧ t.outlen = nn ∧ Accepted key [] t ∧
      t.responses = s.responses ++ [⟨.ok, []⟩] ∧ t.inbox = s.inbox := by
  refine ⟨_, exec_init_ok nn key s short, ?_, rfl, (accepted_startContext s nn key short).respond .ok [], rfl, rfl⟩
  rw [State.respond_tag, State.startContext_tag]
  decide

/-- UPDATE appends its payload to what a context in progress has accepted (rules R8, R47). -/
theorem exec_update_accepted {key input : List Byte} {s : State} (live : s.tag ≠ .finalized)
    (acc : Accepted key input s) (data : List Byte) :
    ∃ t, exec (.update data) s = .next t ∧ t.tag ≠ .finalized ∧ t.outlen = s.outlen ∧
      Accepted key (input ++ data) t ∧ t.responses = s.responses ++ [⟨.ok, []⟩] ∧ t.inbox = s.inbox := by
  rcases exec_update_cases data s with ⟨fin, -⟩ | ⟨-, rfl, kept⟩ | ⟨-, some, taken⟩
  · exact absurd fin live
  · refine ⟨_, kept, live, rfl, ?_, rfl, rfl⟩
    rw [List.append_nil]
    exact acc.respond .ok []
  · obtain ⟨outlen, -, inbox, responses, -⟩ := State.absorbAll_frame data s
    refine ⟨_, taken, ?_, outlen, (acc.absorbAll data some).respond .ok [], ?_, inbox⟩
    · rw [State.respond_tag, State.setTag_tag]
      decide
    · rw [State.respond_responses, State.setTag_responses, responses]

/-- FINAL answers the hash of what a context in progress has accepted (rules R48, R49). -/
theorem exec_final_accepted {key input : List Byte} {s : State} (live : s.tag ≠ .finalized)
    (acc : Accepted key input s) :
    ∃ t D, exec .final s = .next t ∧ hash input s.outlen.val key = .ok D ∧
      t.responses = s.responses ++ [⟨.ok, D⟩] ∧ t.tag = .finalized ∧ t.inbox = s.inbox := by
  refine ⟨_, _, exec_final_ok s live, ?_, rfl, rfl, rfl⟩
  rw [hash_ok input s.outlen key acc.key_le, acc.lastBlock_h, State.lastBlock_outlen]

end Sys2Proof.Machine
end

section
/-! SUPPORT. The commands of one computation, as a run (rules R26, R50). -/

namespace Sys2Proof.Machine

/-- The decoder reads back the encoding of every instruction that has one (rules R21, R22, R23). -/
theorem decode_encode (i : Instr) (wf : i.wellFormed = true) : decode (encode i) = .ok i := by
  cases i with
  | init nn key =>
    have fits : nn < 256 := of_decide_eq_true wf
    rw [encode, decode_init _ _ (rsvField_formatC ..) (opField_formatC ..), nnField_formatC, BitVec.toNat_ofNat,
      Nat.mod_eq_of_lt fits]
  | update data => exact decode_update _ _ (rsvField_formatC ..) (opField_formatC ..) (nnField_formatC ..)
  | final => exact decode_final _ (rsvField_formatC ..) (opField_formatC ..) (nnField_formatC ..)

/-- The commands after INIT: the input cut over UPDATE commands, then FINAL. -/
def updatesAndFinal (pieces : List (List Byte)) : List Event :=
  (pieces.map Instr.update ++ [Instr.final]).map fun i => .command (encode i)

theorem hashCommands_eq (nn : Nat) (key : List Byte) (pieces : List (List Byte)) :
    hashCommands nn key pieces = .command (encode (.init nn key)) :: updatesAndFinal pieces := rfl

theorem updatesAndFinal_nil : updatesAndFinal [] = [.command (encode .final)] := rfl

theorem updatesAndFinal_cons (piece : List Byte) (pieces : List (List Byte)) :
    updatesAndFinal (piece :: pieces) = .command (encode (.update piece)) :: updatesAndFinal pieces := rfl

/-- A run whose next command is the encoding of an instruction executes it first. -/
theorem run_encode (k : Nat) {s t : State} {i : Instr} {rest : List Event}
    (head : s.inbox = .command (encode i) :: rest) (wf : i.wellFormed = true)
    (run : exec i { s with inbox := rest } = .next t) : core.run (k + 1) s = core.run k t :=
  run_succ k s t ((step_command_ok s _ rest i head (decode_encode i wf)).trans run)

/-- From a context that has accepted `input`: UPDATE for each piece, then FINAL. By induction on the pieces; FINAL is
the run's last command, so it is the base. -/
theorem run_updatesAndFinal {key input : List Byte} {s : State} {pieces : List (List Byte)} {rest : List Event}
    (live : s.tag ≠ .finalized) (acc : Accepted key input s) (sent : s.inbox = updatesAndFinal pieces ++ rest) :
    ∃ t D, core.run (pieces.length + 1) s = .next t ∧ hash (input ++ pieces.flatten) s.outlen.val key = .ok D ∧
      t.responses = s.responses ++ List.replicate pieces.length ⟨.ok, []⟩ ++ [⟨.ok, D⟩] ∧
      t.tag = .finalized ∧ t.inbox = rest := by
  induction pieces generalizing s input with
  | nil =>
    rw [updatesAndFinal_nil] at sent
    obtain ⟨t, D, run, digest, responses, tag, inbox⟩ :=
      exec_final_accepted (s := { s with inbox := rest }) live (acc.setInbox rest)
    refine ⟨t, D, run_encode 0 sent rfl run, ?_, ?_, tag, inbox⟩
    · rw [List.flatten_nil, List.append_nil, digest]
    · rw [List.length_nil, List.replicate_zero, List.append_nil, responses]
  | cons piece pieces ih =>
    rw [updatesAndFinal_cons] at sent
    obtain ⟨u, run, live', outlen, acc', responses, inbox⟩ :=
      exec_update_accepted (s := { s with inbox := updatesAndFinal pieces ++ rest }) live (acc.setInbox _) piece
    obtain ⟨t, D, runs, digest, responses', tag, left⟩ := ih live' acc' inbox
    refine ⟨t, D, (run_encode _ sent rfl run).trans runs, ?_, ?_, tag, left⟩
    · rw [List.flatten_cons, ← List.append_assoc, ← digest, outlen]
    · rw [responses', responses, ← List.append_cons, List.length_cons, List.replicate_succ]

/-- Settles O50: INIT builds a context that has accepted nothing, whatever the state was, and `run_updatesAndFinal` runs
the rest. -/
theorem streamingEqualsOneShot : Obligations.StreamingEqualsOneShot := by
  intro s nn key pieces rest ge le short sent
  rw [hashCommands_eq] at sent
  have wf : (Instr.init nn key).wellFormed = true := decide_eq_true (by omega)
  obtain ⟨u, run, live, outlen, acc, responses, inbox⟩ :=
    exec_init_accepted ⟨nn, ge, le⟩ key { s with inbox := updatesAndFinal pieces ++ rest } short
  obtain ⟨t, D, runs, digest, responses', tag, left⟩ := run_updatesAndFinal live acc inbox
  refine ⟨t, D, (run_encode _ sent wf run).trans runs, ?_, ?_, tag, left⟩
  · rw [← digest, outlen, List.nil_append]
  · rw [responses', responses, ← List.append_cons, List.replicate_succ]

end Sys2Proof.Machine
end

section
/-! SUPPORT. The digest extractor (rules R53, R54) byte by byte: which byte of which word stands where in the serialized
state. -/

namespace Sys2Proof.Machine

/-- Byte `k` of a word's eight bytes (rule R14), as a number's byte. -/
theorem bytesLE64_getElem? (x : Word) (k : Nat) (hk : k < 8) :
    (bytesLE64 x)[k]? = some (BitVec.ofNat 8 ((x.toNat >>> (8 * k)) % 256)) := by
  rw [bytesLE64, List.getElem?_map, List.getElem?_range hk, Option.map_some, extractByte_eq]

/-- Words laid out one after the other: eight bytes each, so byte `k` is byte `k % 8` of word `k / 8`. By induction on the
words; past the first one, position `k` is position `k - 8` of the rest. -/
theorem flatMap_bytesLE64_getElem? (words : List Word) (k : Nat) :
    (words.flatMap bytesLE64)[k]? = words[k / 8]?.bind fun x => (bytesLE64 x)[k % 8]? := by
  induction words generalizing k with
  | nil => rfl
  | cons x words ih =>
    rw [List.flatMap_cons]
    rcases Nat.lt_or_ge k 8 with first | later
    · rw [List.getElem?_append_left first, Nat.div_eq_of_lt first, Nat.mod_eq_of_lt first]
      rfl
    · rw [List.getElem?_append_right later, bytesLE64_length, ih, Nat.div_eq_sub_div (by decide) later,
        Nat.mod_eq_sub_mod later]
      rfl

/-- Settles O20: byte `k` is byte `k % 8` of word `k / 8`, which is one of the eight. -/
theorem serializeGivesStateBytes : Obligations.SerializeGivesStateBytes := by
  refine fun h => ⟨serialize_length h, fun k => ?_⟩
  have word : h.toList[k.val / 8]? = some (h[k.val / 8]'(by omega)) := by
    rw [Vector.getElem?_toList, Vector.getElem?_eq_getElem]
  rw [serialize, flatMap_bytesLE64_getElem?, word, Option.bind_some,
    bytesLE64_getElem? _ _ (Nat.mod_lt _ (by decide))]

/-- Settles O21: EXTRACT takes a prefix, and the serialization is long enough for `nn` bytes (`extract_length`). -/
theorem extractTruncatesTheState : Obligations.ExtractTruncatesTheState :=
  fun h nn => ⟨extract_length h nn, fun _ hk => List.getElem?_take_of_lt hk, List.take_prefix nn.val (serialize h)⟩

end Sys2Proof.Machine
end

section
/-! SUPPORT. The exceptions (rules R57 to R61): the status the checks decide, read from the command and the tag alone, and
what a command does when it is not OK. -/

namespace Sys2Proof.Machine

/-! ### What the checks decide -/

/-- INIT's check (rule R57): the parameters, in every tag. -/
def parameterCheck (nn : Nat) (key : List Byte) : Status :=
  if 1 ≤ nn ∧ nn ≤ 64 ∧ key.length ≤ 64 then .ok else .invalidParameter

/-- The check of UPDATE and FINAL (rule R58): the tag, whatever the payload. -/
def usageCheck (tag : Tag) : Status := if tag = .finalized then .invalidUsage else .ok

/-- The status the check of an instruction decides; `exec_cases` ties it to `exec`. -/
def instrCheck (tag : Tag) : Instr → Status
  | .init nn key => parameterCheck nn key
  | .update _ => usageCheck tag
  | .final => usageCheck tag

/-- The status rule R61's checks decide, the decoder's first; `step_command_cases` ties it to `step`. -/
def commandCheck (tag : Tag) (c : Command) : Status :=
  match decode c with
  | .error _ => .illegalCommand
  | .ok i => instrCheck tag i

theorem parameterCheck_eq_invalidParameter_iff (nn : Nat) (key : List Byte) :
    parameterCheck nn key = .invalidParameter ↔ (nn < 1 ∨ 64 < nn ∨ 64 < key.length) := by
  rw [parameterCheck]
  split
  · exact iff_of_false (by decide) (by omega)
  · exact iff_of_true rfl (by omega)

theorem parameterCheck_ne_invalidUsage (nn : Nat) (key : List Byte) : parameterCheck nn key ≠ .invalidUsage := by
  rw [parameterCheck]
  split <;> decide

theorem usageCheck_eq_invalidUsage_iff (tag : Tag) : usageCheck tag = .invalidUsage ↔ tag = .finalized := by
  cases tag <;> decide

theorem usageCheck_ne_invalidParameter (tag : Tag) : usageCheck tag ≠ .invalidParameter := by
  cases tag <;> decide

theorem commandCheck_of_error {tag : Tag} {c : Command} {e : Illegal} (hd : decode c = .error e) :
    commandCheck tag c = .illegalCommand := by
  rw [commandCheck, hd]

theorem commandCheck_of_ok {tag : Tag} {c : Command} {i : Instr} (hd : decode c = .ok i) :
    commandCheck tag c = instrCheck tag i := by
  rw [commandCheck, hd]

theorem commandCheck_of_not_wellFormedPair {tag : Tag} {c : Command} (ill : ¬ wellFormedPair c) :
    commandCheck tag c = .illegalCommand := by
  cases hd : decode c with
  | error e => exact commandCheck_of_error hd
  | ok i => exact absurd (wellFormedPair_of_decode_ok hd) ill

/-! ### The checks decide the answer -/

/-- An instruction whose check fails only raises that status (rule R60); one whose check passes is answered OK. -/
theorem exec_cases (i : Instr) (s : State) :
    (instrCheck s.tag i ≠ .ok ∧ exec i s = .next (s.raise (instrCheck s.tag i))) ∨
      (instrCheck s.tag i = .ok ∧ ∃ t D, exec i s = .next t ∧ t.responses = s.responses ++ [⟨.ok, D⟩]) := by
  cases i with
  | init nn key =>
    rcases exec_init_cases nn key s with ⟨n, rfl, short, ok⟩ | ⟨out, refused⟩
    · exact .inr ⟨if_pos ⟨n.one_le, n.le_64, short⟩, _, _, ok, State.respond_responses _ _ _⟩
    · rw [show instrCheck s.tag (.init nn key) = .invalidParameter from if_neg out]
      exact .inl ⟨by decide, refused⟩
  | update data =>
    rcases exec_update_cases data s with ⟨fin, refused⟩ | ⟨live, -, kept⟩ | ⟨live, -, taken⟩
    · rw [show instrCheck s.tag (.update data) = .invalidUsage from if_pos fin]
      exact .inl ⟨by decide, refused⟩
    · exact .inr ⟨if_neg live, _, _, kept, State.respond_responses _ _ _⟩
    · obtain ⟨-, -, -, responses, -⟩ := State.absorbAll_frame data s
      exact .inr ⟨if_neg live, _, _, taken, by rw [State.respond_responses, State.setTag_responses, responses]⟩
  | final =>
    rcases exec_final_cases s with ⟨fin, refused⟩ | ⟨live, ok⟩
    · rw [show instrCheck s.tag .final = .invalidUsage from if_pos fin]
      exact .inl ⟨by decide, refused⟩
    · exact .inr ⟨if_neg live, _, _, ok, by
        rw [State.respond_responses, State.discard_responses, State.lastBlock_responses]⟩

/-- The status in an instruction's response is the one its check decides. -/
theorem exec_status {i : Instr} {s t : State} {r : Response} (run : exec i s = .next t)
    (answer : t.responses = s.responses ++ [r]) : r.status = instrCheck s.tag i := by
  rcases exec_cases i s with ⟨-, refused⟩ | ⟨passed, u, D, ok, responses⟩
  · obtain rfl := next_injective (refused.symm.trans run)
    obtain rfl := response_injective ((State.raise_responses _ _).symm.trans answer)
    rfl
  · obtain rfl := next_injective (ok.symm.trans run)
    obtain rfl := response_injective (responses.symm.trans answer)
    exact passed.symm

/-- An instruction is answered with an error exactly when its check decides that error. -/
theorem exec_raises_iff {i : Instr} {s t : State} {e : Status} (err : e ≠ .ok) (run : exec i s = .next t) :
    t.responses = s.responses ++ [⟨e, []⟩] ↔ instrCheck s.tag i = e := by
  refine ⟨fun answer => (exec_status run answer).symm, ?_⟩
  rintro rfl
  rcases exec_cases i s with ⟨-, refused⟩ | ⟨passed, -⟩
  · obtain rfl := next_injective (refused.symm.trans run)
    exact State.raise_responses _ _
  · exact absurd passed err

/-- A command whose checks do not all pass only raises the first failure's status (rules R60, R61); else it is answered
OK. -/
theorem step_command_cases {s : State} {c : Command} {rest : List Event} (head : s.inbox = .command c :: rest) :
    (commandCheck s.tag c ≠ .ok ∧
        step s = .next (({ s with inbox := rest } : State).raise (commandCheck s.tag c))) ∨
      (commandCheck s.tag c = .ok ∧ ∃ t D, step s = .next t ∧ t.responses = s.responses ++ [⟨.ok, D⟩]) := by
  cases hd : decode c with
  | error e =>
    rw [commandCheck_of_error hd]
    exact .inl ⟨by decide, step_command_illegal s c rest e head hd⟩
  | ok i =>
    rw [commandCheck_of_ok hd, step_command_ok s c rest i head hd]
    exact exec_cases i { s with inbox := rest }

/-- Every command is answered with the status its checks decide. -/
theorem step_command_status {s : State} {c : Command} {rest : List Event} (head : s.inbox = .command c :: rest) :
    ∃ t D, step s = .next t ∧ t.responses = s.responses ++ [⟨commandCheck s.tag c, D⟩] := by
  rcases step_command_cases head with ⟨-, refused⟩ | ⟨passed, answered⟩
  · exact ⟨_, [], refused, State.raise_responses _ _⟩
  · rwa [passed]

/-! ### The one-shot hash -/

/-- `hash` on parameters out of range (rules R49, R57). -/
theorem hash_refused (input : List Byte) (nn : Nat) (key : List Byte)
    (out : ¬ (1 ≤ nn ∧ nn ≤ 64 ∧ key.length ≤ 64)) : hash input nn key = .error .invalidParameter := by
  rw [hash]
  split
  case isTrue range => exact if_neg fun short => out ⟨range.1, range.2, short⟩
  case isFalse => rfl

/-- `hash` makes INIT's check (rules R49, R57). -/
theorem hash_error_iff (input : List Byte) (nn : Nat) (key : List Byte) :
    hash input nn key = .error .invalidParameter ↔ parameterCheck nn key = .invalidParameter := by
  by_cases range : 1 ≤ nn ∧ nn ≤ 64 ∧ key.length ≤ 64
  · obtain ⟨low, high, short⟩ := range
    rw [hash_ok input ⟨nn, low, high⟩ key short, parameterCheck, if_pos ⟨low, high, short⟩]
    exact iff_of_false nofun (by decide)
  · exact iff_of_true (hash_refused input nn key range) (if_neg range)

/-! ### The statements of rules R57, R58, R60 and R61 -/

/-- Settles O26: InvalidParameter is the failure of `parameterCheck`, which INIT and `hash` make, and UPDATE and FINAL do
not. -/
theorem invalidParameterExactly : Obligations.InvalidParameterExactly := by
  refine ⟨rfl, fun nn key s t run => ?_, fun data s t D run answer => ?_, fun s t D run answer => ?_,
    fun input key nn => ?_⟩
  · exact (exec_raises_iff (by decide) run).trans (parameterCheck_eq_invalidParameter_iff nn key)
  · exact usageCheck_ne_invalidParameter s.tag (exec_status run answer).symm
  · exact usageCheck_ne_invalidParameter s.tag (exec_status run answer).symm
  · exact (hash_error_iff input nn key).trans (parameterCheck_eq_invalidParameter_iff nn key)

/-- Settles O34: InvalidUsage is the failure of `usageCheck`, which UPDATE and FINAL make, and INIT does not. -/
theorem invalidUsageExactly : Obligations.InvalidUsageExactly := by
  refine ⟨rfl, fun data s t run => ?_, fun s t run => ?_, fun nn key s t D run answer => ?_⟩
  · exact (exec_raises_iff (by decide) run).trans (usageCheck_eq_invalidUsage_iff s.tag)
  · exact (exec_raises_iff (by decide) run).trans (usageCheck_eq_invalidUsage_iff s.tag)
  · exact parameterCheck_ne_invalidUsage nn key (exec_status run answer).symm

/-- Settles O38: a status other than OK is a failed check, and then the step is `raise` on the state without the
command. -/
theorem refusedCommandsChangeNothing : Obligations.RefusedCommandsChangeNothing := by
  intro s t c rest r head next answer notOk
  rcases step_command_cases head with ⟨-, refused⟩ | ⟨-, u, D, ok, responses⟩
  · obtain rfl := next_injective (refused.symm.trans next)
    obtain rfl := response_injective ((State.raise_responses _ _).symm.trans answer)
    exact ⟨rfl, rfl⟩
  · obtain rfl := next_injective (ok.symm.trans next)
    obtain rfl := response_injective (responses.symm.trans answer)
    exact absurd rfl notOk

/-- Settles O39: the status is `commandCheck`'s, which makes the checks in rule R61's order. -/
theorem firstFailedCheckDecides : Obligations.FirstFailedCheckDecides := by
  intro s c rest head
  obtain ⟨t, D, next, responses⟩ := step_command_status head
  exact ⟨t, _, next, responses, commandCheck_of_not_wellFormedPair, fun _ hd => commandCheck_of_ok hd,
    fun hd => commandCheck_of_ok hd, fun _ _ hd => commandCheck_of_ok hd⟩

end Sys2Proof.Machine
end

section
/-! SUPPORT. The encoding read in both directions (rules R20 to R24, R27), and the sample words of the spec's decoder
table. -/

namespace Sys2Proof.Machine

/-- What the decoder accepts is the encoding of what it reads: its three fields are the header, and the payload is the
operand. -/
theorem encode_of_decode_ok {c : Command} {i : Instr} (hd : decode c = .ok i) : encode i = c := by
  obtain ⟨hdr, P⟩ := c
  have whole := formatC_fields hdr
  obtain ⟨rsv, ⟨op, rfl⟩ | ⟨op, nn, rfl⟩ | ⟨op, nn, rfl, rfl⟩⟩ := decode_ok_cases ⟨hdr, P⟩ i hd
  · rw [rsv, op] at whole
    rw [encode, BitVec.ofNat_toNat, BitVec.setWidth_eq, whole]
  · rw [rsv, op, nn] at whole
    rw [encode, whole]
  · rw [rsv, op, nn] at whole
    rw [encode, whole]

/-- What the decoder reads has an encoding: `NN` comes from an 8-bit field. -/
theorem wellFormed_of_decode_ok {c : Command} {i : Instr} (hd : decode c = .ok i) : i.wellFormed = true := by
  obtain ⟨-, ⟨-, rfl⟩ | ⟨-, -, rfl⟩ | ⟨-, -, -, rfl⟩⟩ := decode_ok_cases c i hd
  · exact decide_eq_true (nnField c.hdr).isLt
  · rfl
  · rfl

/-- Settles O2: `decode_encode` one way; the other way a header is made of its fields, and the decoder has read them
all. -/
theorem decodeAndEncodeAreInverse : Obligations.DecodeAndEncodeAreInverse :=
  ⟨decode_encode, fun _ _ hd => ⟨wellFormed_of_decode_ok hd, encode_of_decode_ok hd⟩⟩

/-- Settles O1: each sample word has the fields of one of the decoder's cases. -/
theorem commandWordsDecode : Obligations.CommandWordsDecode :=
  ⟨fun P => decode_init _ P rfl rfl, decode_init _ [] rfl rfl, fun P => decode_init _ P rfl rfl,
    fun P => decode_init _ P rfl rfl, fun P => decode_update _ P rfl rfl rfl, decode_final _ rfl rfl rfl,
    fun b P => decode_payloadOnFinal _ _ rfl rfl rfl (List.cons_ne_nil b P),
    fun P => decode_nnNotZero _ P rfl (.inl rfl) (by decide), fun P => decode_nnNotZero _ P rfl (.inr rfl) (by decide),
    fun P => decode_reservedBits _ P (by decide), fun P => decode_reservedBits _ P (by decide),
    fun P => decode_reservedOpcode _ P rfl (by decide) (by decide) (by decide),
    fun P => decode_reservedOpcode _ P rfl (by decide) (by decide) (by decide),
    fun P => decode_reservedOpcode _ P rfl (by decide) (by decide) (by decide)⟩

end Sys2Proof.Machine
end

section
/-! SUPPORT. Every step keeps the context invariant (rules R8, R51): INIT and UPDATE lead to a context that has accepted
a stream, FINAL and a reset end the computation, and everything else leaves the context as it was. -/

namespace Sys2Proof.Machine

/-- Answering a command keeps the invariant. -/
theorem ContextInv.respond {s : State} (inv : ContextInv s) (st : Status) (d : List Byte) :
    ContextInv (s.respond st d) := by
  intro live
  obtain ⟨key, input, acc⟩ := inv live
  exact ⟨key, input, acc.respond st d⟩

/-- What the host sends next does not matter to the invariant. -/
theorem ContextInv.setInbox {s : State} (inv : ContextInv s) (es : List Event) : ContextInv { s with inbox := es } := by
  intro live
  obtain ⟨key, input, acc⟩ := inv live
  exact ⟨key, input, acc.setInbox es⟩

/-- Between computations nothing is asked. -/
theorem contextInv_of_finalized {s : State} (fin : s.tag = .finalized) : ContextInv s := fun live => absurd fin live

/-- Every command keeps the invariant. -/
theorem ContextInv.exec {s t : State} {i : Instr} (inv : ContextInv s) (run : exec i s = .next t) : ContextInv t := by
  cases i with
  | init nn key =>
    rcases exec_init_cases nn key s with ⟨n, -, short, ok⟩ | ⟨-, refused⟩
    · obtain rfl := next_injective (ok.symm.trans run)
      exact fun _ => ⟨key, [], (accepted_startContext s n key short).respond .ok []⟩
    · obtain rfl := next_injective (refused.symm.trans run)
      exact inv.respond .invalidParameter []
  | update data =>
    by_cases fin : s.tag = .finalized
    · obtain rfl := next_injective ((exec_update_refused data s fin).symm.trans run)
      exact inv.respond .invalidUsage []
    · obtain ⟨key, input, acc⟩ := inv fin
      obtain ⟨u, ran, -, -, acc', -⟩ := exec_update_accepted fin acc data
      obtain rfl := next_injective (ran.symm.trans run)
      exact fun _ => ⟨key, _, acc'⟩
  | final => exact contextInv_of_finalized (exec_final_tag run)

/-- Settles O45: what a step can do is in `step_cases`; the commands are `ContextInv.exec`. -/
theorem stepKeepsTheContextInvariant : Obligations.StepKeepsTheContextInvariant := by
  intro s t inv next
  rcases step_cases s with ⟨-, idle⟩ | ⟨rest, head, -⟩ | ⟨c, rest, e, -, -, illegal⟩ | ⟨c, rest, i, -, -, runs⟩
  · obtain rfl := next_injective (idle.symm.trans next)
    exact inv
  · exact contextInv_of_finalized (step_reset_tag head next)
  · obtain rfl := next_injective (illegal.symm.trans next)
    exact (inv.setInbox rest).respond .illegalCommand []
  · exact (inv.setInbox rest).exec (runs.symm.trans next)

/-- Settles O46: reset leaves no computation in progress. -/
theorem resetMeetsTheContextInvariant : Obligations.ResetMeetsTheContextInvariant :=
  ⟨fun o => contextInv_of_finalized (State.resetWith_tag o), contextInv_of_finalized State.reset_tag⟩

end Sys2Proof.Machine
end

section
/-! SUPPORT. Bytes, words and hex digits (rules R13, R14, R42, R56): a word is its eight bytes, the parameter word, and
a byte is its two digits. -/

namespace Sys2Proof.Machine

/-! ### LE64 and its inverse (rules R13, R14) -/

/-- Byte `k` of a word is the `k`-th digit of its value in base 256. -/
theorem extractByte_toNat (x : Word) (k : Nat) : (x.extractLsb' (8 * k) 8).toNat = x.toNat / 2 ^ (8 * k) % 256 := by
  rw [BitVec.extractLsb'_toNat, Nat.shiftRight_eq_div_pow]

/-- LE64 puts a word together again from its bytes. -/
theorem le64_bytes (x : Word) :
    le64 (x.extractLsb' 0 8) (x.extractLsb' 8 8) (x.extractLsb' 16 8) (x.extractLsb' 24 8) (x.extractLsb' 32 8)
      (x.extractLsb' 40 8) (x.extractLsb' 48 8) (x.extractLsb' 56 8) = x := by
  have digit := extractByte_toNat x
  apply BitVec.eq_of_toNat_eq
  rw [le64_toNat, digit 0, digit 1, digit 2, digit 3, digit 4, digit 5, digit 6, digit 7]
  have := x.isLt
  omega

/-- The bytes of LE64 are the ones it was made of. -/
theorem bytesLE64_le64 (b0 b1 b2 b3 b4 b5 b6 b7 : Byte) :
    bytesLE64 (le64 b0 b1 b2 b3 b4 b5 b6 b7) = [b0, b1, b2, b3, b4, b5, b6, b7] := by
  have value := le64_toNat b0 b1 b2 b3 b4 b5 b6 b7
  generalize le64 b0 b1 b2 b3 b4 b5 b6 b7 = x at value
  have digit {b : Byte} (k : Nat) (same : x.toNat / 2 ^ (8 * k) % 256 = b.toNat) : x.extractLsb' (8 * k) 8 = b :=
    BitVec.eq_of_toNat_eq ((extractByte_toNat x k).trans same)
  have := b0.isLt
  have := b1.isLt
  have := b2.isLt
  have := b3.isLt
  have := b4.isLt
  have := b5.isLt
  have := b6.isLt
  have := b7.isLt
  rw [bytesLE64_eq, digit 0 (b := b0) (by omega), digit 1 (b := b1) (by omega), digit 2 (b := b2) (by omega),
    digit 3 (b := b3) (by omega), digit 4 (b := b4) (by omega), digit 5 (b := b5) (by omega),
    digit 6 (b := b6) (by omega), digit 7 (b := b7) (by omega)]

/-- Words with the same bytes are equal: LE64 gives both back. -/
theorem bytesLE64_injective {x y : Word} (same : bytesLE64 x = bytesLE64 y) : x = y := by
  rw [bytesLE64_eq, bytesLE64_eq] at same
  simp only [List.cons.injEq] at same
  obtain ⟨e0, e1, e2, e3, e4, e5, e6, e7, -⟩ := same
  rw [← le64_bytes x, e0, e1, e2, e3, e4, e5, e6, e7, le64_bytes]

/-- Settles O18: `bytesLE64` lists the bytes, and LE64 is its inverse on both sides. -/
theorem wordBytesRoundTrip : Obligations.WordBytesRoundTrip :=
  ⟨bytesLE64_eq, bytesLE64_le64, fun _ _ => bytesLE64_injective⟩

/-! ### The parameter word (rule R42) -/

/-- A byte of the parameter block: the four fields, then zeros. -/
theorem parameterBlock_getElem (nn kk i : Nat) (hi : i < 64) :
    (parameterBlock nn kk)[i] = [BitVec.ofNat 8 nn, BitVec.ofNat 8 kk, 1#8, 1#8].getD i 0 := by
  rw [parameterBlock, Vector.getElem_ofFn]

theorem parameterBlock_tail (nn kk i : Nat) (hi : i < 64) (tail : 4 ≤ i) : (parameterBlock nn kk)[i] = 0 := by
  rw [parameterBlock_getElem]
  exact List.getD_eq_default _ _ tail

/-- A word of the parameter block. -/
theorem parameterWords_getElem (nn kk i : Nat) (hi : i < 8) :
    (parameterWords nn kk)[i] =
      le64 (parameterBlock nn kk)[8 * i] (parameterBlock nn kk)[8 * i + 1] (parameterBlock nn kk)[8 * i + 2]
        (parameterBlock nn kk)[8 * i + 3] (parameterBlock nn kk)[8 * i + 4] (parameterBlock nn kk)[8 * i + 5]
        (parameterBlock nn kk)[8 * i + 6] (parameterBlock nn kk)[8 * i + 7] := by
  rw [parameterWords, Vector.getElem_ofFn]

/-- Words 1 to 7 are zero. -/
theorem parameterWords_tail (nn kk i : Nat) (hi : i < 8) (tail : 1 ≤ i) : (parameterWords nn kk)[i] = 0 := by
  have zero (k : Nat) (hk : 8 * i + k < 64) : (parameterBlock nn kk)[8 * i + k] = 0 :=
    parameterBlock_tail nn kk _ hk (by omega)
  have first : (parameterBlock nn kk)[8 * i] = 0 := parameterBlock_tail nn kk _ (by omega) (by omega)
  rw [parameterWords_getElem, first, zero 1, zero 2, zero 3, zero 4, zero 5, zero 6, zero 7]
  rfl

/-- Word 0 holds the digest length, the key length, and 1 for the fanout and for the depth. -/
theorem parameterWords_zero (nn kk : Nat) (hn : nn < 256) (hk : kk < 256) :
    (parameterWords nn kk)[0] = BitVec.ofNat 64 (nn + 2 ^ 8 * kk + 2 ^ 16 * 1 + 2 ^ 24 * 1) := by
  have bytes : (parameterWords nn kk)[0] = le64 (BitVec.ofNat 8 nn) (BitVec.ofNat 8 kk) 1#8 1#8 0#8 0#8 0#8 0#8 := by
    rw [parameterWords_getElem]
    simp only [parameterBlock_getElem]
    rfl
  apply BitVec.eq_of_toNat_eq
  rw [bytes, le64_toNat]
  simp only [BitVec.toNat_ofNat]
  omega

/-- A word of the initial state. -/
theorem initialState_getElem (nn kk i : Nat) (hi : i < 8) :
    (initialState nn kk)[i] = iv[i] ^^^ (parameterWords nn kk)[i] := by
  rw [initialState, Vector.getElem_ofFn, xor64, Fin.getElem_fin, Fin.getElem_fin]

/-- Settles O19: the parameter block has one non-zero word. -/
theorem initialStateFoldsParameters : Obligations.InitialStateFoldsParameters := by
  intro nn kk _ hn hk
  refine ⟨?_, fun i tail => ?_⟩
  · rw [initialState_getElem, parameterWords_zero nn kk (by omega) (by omega)]
  · rw [Fin.getElem_fin, initialState_getElem, parameterWords_tail nn kk i.val i.isLt tail]
    exact BitVec.xor_zero

/-! ### Hex (rule R56) -/

/-- Different digits are written differently. -/
theorem hexDigit_injective : ∀ m n : BitVec 4, hexDigit m = hexDigit n → m = n := by decide

/-- The high digit is the byte's value divided by 16, the low one the remainder. -/
theorem hexByte_eq (b : Byte) :
    hexByte b = [hexDigit (BitVec.ofNat 4 (b.toNat / 16)), hexDigit (BitVec.ofNat 4 (b.toNat % 16))] := by
  have high : b.extractLsb' 4 4 = BitVec.ofNat 4 (b.toNat / 16) := by
    apply BitVec.eq_of_toNat_eq
    rw [BitVec.extractLsb'_toNat, BitVec.toNat_ofNat, Nat.shiftRight_eq_div_pow]
  have low : b.extractLsb' 0 4 = BitVec.ofNat 4 (b.toNat % 16) := by
    apply BitVec.eq_of_toNat_eq
    rw [BitVec.extractLsb'_toNat, BitVec.toNat_ofNat, Nat.shiftRight_zero, Nat.mod_mod]
  rw [hexByte, high, low]

/-- Two bytes whose digits are written alike are equal. -/
theorem byte_eq_of_hexDigits {a b : Byte}
    (high : hexDigit (BitVec.ofNat 4 (a.toNat / 16)) = hexDigit (BitVec.ofNat 4 (b.toNat / 16)))
    (low : hexDigit (BitVec.ofNat 4 (a.toNat % 16)) = hexDigit (BitVec.ofNat 4 (b.toNat % 16))) : a = b := by
  have high := congrArg BitVec.toNat (hexDigit_injective _ _ high)
  have low := congrArg BitVec.toNat (hexDigit_injective _ _ low)
  simp only [BitVec.toNat_ofNat] at high low
  have := a.isLt
  have := b.isLt
  apply BitVec.eq_of_toNat_eq
  omega

theorem hex_cons (b : Byte) (bytes : List Byte) :
    hex (b :: bytes) =
      hexDigit (BitVec.ofNat 4 (b.toNat / 16)) :: hexDigit (BitVec.ofNat 4 (b.toNat % 16)) :: hex bytes := by
  rw [hex, List.flatMap_cons, hexByte_eq, hex]
  rfl

theorem hex_length (bytes : List Byte) : (hex bytes).length = 2 * bytes.length := by
  induction bytes with
  | nil => rfl
  | cons b bytes ih =>
    rw [hex_cons, List.length_cons, List.length_cons, ih, List.length_cons]
    omega

/-- Equal renderings have equal bytes, two digits at a time. -/
theorem hex_injective {bytes bytes' : List Byte} (same : hex bytes = hex bytes') : bytes = bytes' := by
  induction bytes generalizing bytes' with
  | nil =>
    have length := congrArg List.length same
    rw [hex_length, hex_length, List.length_nil] at length
    exact (List.length_eq_zero_iff.mp (by omega)).symm
  | cons b bytes ih =>
    cases bytes' with
    | nil =>
      rw [hex_cons] at same
      exact absurd same (List.cons_ne_nil _ _)
    | cons b' bytes' =>
      rw [hex_cons, hex_cons, List.cons.injEq, List.cons.injEq] at same
      obtain ⟨high, low, rest⟩ := same
      rw [byte_eq_of_hexDigits high low, ih rest]

/-- Settles O55: two digits a byte, from which the byte can be read back. -/
theorem hexPrintsTwoDigitsPerByte : Obligations.HexPrintsTwoDigitsPerByte :=
  ⟨hex_length, hex_cons, fun _ _ => hex_injective⟩

end Sys2Proof.Machine
end

section
/-! SUPPORT. The chunks of a stream (rules R49, R51), the four clauses of rule R8 for a context that has accepted it,
and what the commands and `hash` owe it. -/

namespace Sys2Proof.Machine

/-- The chunks put together are the stream. By induction on the stream from its end: a byte is added to the last chunk,
or starts a new one when that is full. -/
theorem flatten_chunks (S : List Byte) : (fullChunks S).flatten ++ lastChunk S = S := by
  induction S using List.reverseRecOn with
  | nil => rfl
  | append_singleton S b ih =>
    rcases Nat.lt_or_ge (lastChunk S).length 128 with room | ge
    · rw [fullChunks_snoc_room S b room, lastChunk_snoc_room S b room, ← List.append_assoc, ih]
    · have full := Nat.le_antisymm (lastChunk_length_le S) ge
      rw [fullChunks_snoc_full S b full, lastChunk_snoc_full S b full, List.flatten_append, List.flatten_singleton, ih]

/-- Every chunk but the last is a whole block. -/
theorem length_of_mem_fullChunks {S c : List Byte} (mem : c ∈ fullChunks S) : c.length = 128 := by
  obtain ⟨i, hi, rfl⟩ := List.mem_map.mp mem
  have inside := List.mem_range.mp hi
  rw [fullCount] at inside
  rw [List.length_take, List.length_drop]
  omega

/-- The last chunk is what the stream has past the whole blocks. -/
theorem lastChunk_length_add (S : List Byte) : (lastChunk S).length + 128 * ((S.length - 1) / 128) = S.length := by
  rw [lastChunk_length]
  omega

/-- The last chunk is empty only if the stream is. -/
theorem lastChunk_length_pos {S : List Byte} (some : S ≠ []) : 1 ≤ (lastChunk S).length := by
  have := List.length_pos_iff.mpr some
  rw [lastChunk_length]
  omega

/-- The counter after the chunks before the last: 128 for each. -/
theorem hashChunks_counter (h : Vector Word 8) (cs : List (List Byte)) :
    (hashChunks h cs).2 = 128 * cs.length % 2 ^ 128 := by
  rw [hashChunks, foldl_hashStep_counter _ _ _ (by decide), Nat.zero_add]

/-- Settles O47: the chunks, their lengths, their number and the counter are the lemmas above. -/
theorem chunksCoverTheStream : Obligations.ChunksCoverTheStream := by
  refine fun S => ⟨flatten_chunks S, fun _ => length_of_mem_fullChunks, lastChunk_length_le S, lastChunk_length_pos, ?_,
    fun h => hashChunks_counter h _⟩
  rw [fullChunks_length]
  omega

/-- Settles O43: each clause is a fact about the last chunk, which waits in the buffer. -/
theorem acceptedStreamFillsTheBuffer : Obligations.AcceptedStreamFillsTheBuffer := by
  intro key input s acc
  have whole := lastChunk_length_add (stream key input)
  rw [← acc.buflen_eq] at whole
  have before : (stream key input).length - s.buflen.val = 128 * (((stream key input).length - 1) / 128) := by omega
  refine ⟨by omega, by omega, ?_, fun empty => ?_, ?_⟩
  · rw [acc.buf_eq, before, lastChunk, fullCount]
  · by_contra some
    have := lastChunk_length_pos some
    rw [← acc.buflen_eq] at this
    omega
  · rw [acc.counter_eq, hashChunks_counter, fullChunks_length, before]

/-- Settles O44: `exec_init_accepted` and `exec_update_accepted`. -/
theorem commandsAcceptTheStream : Obligations.CommandsAcceptTheStream := by
  refine ⟨fun nn key s ge le short => ?_, fun key input data s live acc => ?_⟩
  · obtain ⟨t, run, -, -, acc, -⟩ := exec_init_accepted ⟨nn, ge, le⟩ key s short
    exact ⟨t, run, acc⟩
  · obtain ⟨t, run, live', outlen, acc', -⟩ := exec_update_accepted live acc data
    exact ⟨t, run, live', outlen, acc'⟩

/-- Settles O49: `exec_final_accepted`. -/
theorem finalAnswersTheHash : Obligations.FinalAnswersTheHash := by
  intro key input s live acc
  obtain ⟨t, D, run, digest, responses, -⟩ := exec_final_accepted live acc
  exact ⟨t, D, run, digest, responses⟩

/-- Settles O48: EXTRACT gives as many bytes as asked for. -/
theorem hashHasTheRequestedLength : Obligations.HashHasTheRequestedLength := by
  refine fun input key nn => ⟨?_, hash_refused input nn key⟩
  rintro ⟨ge, le, short⟩
  exact ⟨_, hash_ok input ⟨nn, ge, le⟩ key short, extract_length _ _⟩

end Sys2Proof.Machine
end

section
/-! SUPPORT. The mixing function and the rounds of F (rules R31, R32, R35 to R39): G slot by slot, invocations that
commute, and the twelve rounds as one row of invocations. -/

namespace Sys2Proof.Machine

/-! ### G on its slots and beside them (rules R31, R32) -/

/-- The four slots of a quadruple, as rule R32 lists them. -/
def Quadruple.slots (q : Quadruple) : List (Fin 16) := [q.a, q.b, q.c, q.d]

theorem Quadruple.mem_slots (q : Quadruple) (k : Fin 16) :
    k ∈ q.slots ↔ k.val = q.a.val ∨ k.val = q.b.val ∨ k.val = q.c.val ∨ k.val = q.d.val := by
  simp only [slots, List.mem_cons, List.not_mem_nil, or_false, Fin.ext_iff]

theorem mixG_a (v : Vector Word 16) (q : Quadruple) (x y : Word) : (mixG v q x y)[q.a] = (mixed v q x y).a := by
  rw [Fin.getElem_fin, mixG_getElem, if_pos rfl]

theorem mixG_b (v : Vector Word 16) (q : Quadruple) (x y : Word) : (mixG v q x y)[q.b] = (mixed v q x y).b := by
  obtain ⟨ab, -⟩ := q.slots_ne
  rw [Fin.getElem_fin, mixG_getElem, if_neg ab.symm, if_pos rfl]

theorem mixG_c (v : Vector Word 16) (q : Quadruple) (x y : Word) : (mixG v q x y)[q.c] = (mixed v q x y).c := by
  obtain ⟨-, ac, -, bc, -⟩ := q.slots_ne
  rw [Fin.getElem_fin, mixG_getElem, if_neg ac.symm, if_neg bc.symm, if_pos rfl]

theorem mixG_d (v : Vector Word 16) (q : Quadruple) (x y : Word) : (mixG v q x y)[q.d] = (mixed v q x y).d := by
  obtain ⟨-, -, ad, -, bd, cd⟩ := q.slots_ne
  rw [Fin.getElem_fin, mixG_getElem, if_neg ad.symm, if_neg bd.symm, if_neg cd.symm, if_pos rfl]

/-- G leaves every slot but its own alone. -/
theorem mixG_kept (v : Vector Word 16) (q : Quadruple) (x y : Word) {k : Fin 16} (outside : k ∉ q.slots) :
    (mixG v q x y)[k] = v[k] := by
  rw [q.mem_slots, not_or, not_or, not_or] at outside
  obtain ⟨a, b, c, d⟩ := outside
  rw [Fin.getElem_fin, mixG_getElem, if_neg a, if_neg b, if_neg c, if_neg d, Fin.getElem_fin]

/-- Settles O11: what G leaves is `mixed`, the formulas of G4 on the words it reads. -/
theorem mixIsG4OnItsSlots : Obligations.MixIsG4OnItsSlots :=
  fun v q x y => ⟨rfl, mixG_a v q x y, mixG_b v q x y, mixG_c v q x y, mixG_d v q x y,
    fun _ outside => mixG_kept v q x y outside⟩

/-- What G leaves in its slots depends on the words in its slots. -/
theorem mixed_congr {v w : Vector Word 16} {q : Quadruple} (same : ∀ k ∈ q.slots, v[k] = w[k]) (x y : Word) :
    mixed v q x y = mixed w q x y := by
  have a : v[q.a] = w[q.a] := same q.a (by simp [Quadruple.slots])
  have b : v[q.b] = w[q.b] := same q.b (by simp [Quadruple.slots])
  have c : v[q.c] = w[q.c] := same q.c (by simp [Quadruple.slots])
  have d : v[q.d] = w[q.d] := same q.d (by simp [Quadruple.slots])
  rw [mixed, a, b, c, d, mixed]

/-- On its slots, G gives the same from work vectors that agree there. -/
theorem mixG_congr {v w : Vector Word 16} {q : Quadruple} (same : ∀ k ∈ q.slots, v[k] = w[k]) (x y : Word) {k : Fin 16}
    (inside : k ∈ q.slots) : (mixG v q x y)[k] = (mixG w q x y)[k] := by
  rw [Fin.getElem_fin, Fin.getElem_fin, mixG_getElem, mixG_getElem, mixed_congr same]
  have agree := same k inside
  rw [Fin.getElem_fin, Fin.getElem_fin] at agree
  rw [agree]

/-- Two invocations of G on disjoint quadruples commute: each reads and writes only its own slots. -/
theorem mixG_comm (v : Vector Word 16) {q r : Quadruple} (x y x' y' : Word) (disjoint : List.Disjoint q.slots r.slots) :
    mixG (mixG v q x y) r x' y' = mixG (mixG v r x' y') q x y := by
  apply Vector.ext
  intro i hi
  change (mixG (mixG v q x y) r x' y')[(⟨i, hi⟩ : Fin 16)] = (mixG (mixG v r x' y') q x y)[(⟨i, hi⟩ : Fin 16)]
  have beside (k : Fin 16) (inR : k ∈ r.slots) : (mixG v q x y)[k] = v[k] :=
    mixG_kept v q x y fun inQ => disjoint inQ inR
  have beside' (k : Fin 16) (inQ : k ∈ q.slots) : (mixG v r x' y')[k] = v[k] :=
    mixG_kept v r x' y' fun inR => disjoint inQ inR
  by_cases inR : (⟨i, hi⟩ : Fin 16) ∈ r.slots
  · rw [mixG_congr beside x' y' inR, mixG_kept _ q x y fun inQ => disjoint inQ inR]
  · rw [mixG_kept _ r x' y' inR]
    by_cases inQ : (⟨i, hi⟩ : Fin 16) ∈ q.slots
    · exact (mixG_congr beside' x y inQ).symm
    · rw [mixG_kept _ q x y inQ, mixG_kept _ q x y inQ, mixG_kept _ r x' y' inR]

/-- Settles O12: `mixG_comm`. -/
theorem disjointMixesCommute : Obligations.DisjointMixesCommute :=
  fun v _ _ x y x' y' disjoint => mixG_comm v x y x' y' disjoint

/-! ### Rounds (rules R35, R36, R38) -/

/-- The quadruples of one group, columns or diagonals, share no slot (rule R36). -/
theorem quadruples_apart : ∀ i j : Fin 8, i.val / 4 = j.val / 4 → i ≠ j →
    ∀ k : Fin 16, k ∈ quadruples[i].slots → k ∉ quadruples[j].slots := by decide

/-- Two invocations of one group commute. -/
theorem mixStep_comm (m v : Vector Word 16) (r : Nat) {i j : Fin 8} (group : i.val / 4 = j.val / 4) :
    mixStep m r (mixStep m r v i) j = mixStep m r (mixStep m r v j) i := by
  by_cases eq : i = j
  · rw [eq]
  · exact mixG_comm v _ _ _ _ fun k inI inJ => quadruples_apart i j group eq k inI inJ

/-- The invocations of one group give the same in any order. -/
theorem foldl_mixStep_perm (m v : Vector Word 16) (r g : Nat) {js js' : List (Fin 8)} (perm : js.Perm js')
    (group : ∀ j ∈ js, j.val / 4 = g) : js.foldl (mixStep m r) v = js'.foldl (mixStep m r) v :=
  perm.foldl_eq' (fun i hi j hj v => mixStep_comm m v r ((group i hi).trans (group j hj).symm)) v

/-- Settles O16: inside each group the invocations commute, and a round is the columns followed by the diagonals. -/
theorem orderInsideAGroupIsFree : Obligations.OrderInsideAGroupIsFree := by
  intro m v r columns diagonals cols diags
  have columnGroup : ∀ j ∈ ([0, 1, 2, 3] : List (Fin 8)), j.val / 4 = 0 := by decide
  have diagonalGroup : ∀ j ∈ ([4, 5, 6, 7] : List (Fin 8)), j.val / 4 = 1 := by decide
  rw [List.foldl_append, foldl_mixStep_perm m v r 0 cols fun j hj => columnGroup j (cols.mem_iff.mp hj),
    foldl_mixStep_perm m _ r 1 diags fun j hj => diagonalGroup j (diags.mem_iff.mp hj), round_eq]

/-- Settles O13: the ten rows and the eight quadruples are looked through one by one; round `r` uses one of the rows. -/
theorem scheduleIsTenPermutations : Obligations.ScheduleIsTenPermutations := by
  have rows : ∀ r : Fin 10, ((List.finRange 8).flatMap fun j : Fin 8 =>
      [(sigma[r])[2 * j.val], (sigma[r])[2 * j.val + 1]]).Perm (List.finRange 16) := by decide
  refine ⟨by decide, by decide, fun r row eq => ?_, fun r => rows ⟨r % 10, Nat.mod_lt r (by decide)⟩,
    quadruples_apart, by decide⟩
  rw [sigmaRow, Fin.getElem_fin]
  simp only [eq]

/-! ### F (rules R38, R39) -/

/-- Invocation `k` of the 96: `j = k mod 8` of round `k / 8`. -/
def mixNumber (m v : Vector Word 16) (k : Nat) : Vector Word 16 :=
  mixStep m (k / 8) v ⟨k % 8, Nat.mod_lt k (by decide)⟩

/-- A round is the eight invocations from number `8r` on. -/
theorem round_eq_mixNumbers (m v : Vector Word 16) (r : Nat) :
    Machine.round m v r = (List.range 8).foldl (fun v j => mixNumber m v (8 * r + j)) v := by
  rw [Machine.round, ← List.map_coe_finRange_eq_range, List.foldl_map]
  congr 1
  funext v j
  have round : (8 * r + j.val) / 8 = r := by omega
  have invocation : (8 * r + j.val) % 8 = j.val := by omega
  simp only [mixNumber, round, invocation]

/-- The twelve rounds are the 96 invocations in a row. -/
theorem rounds_eq_mixNumbers (m v : Vector Word 16) : rounds m v = (List.range 96).foldl (mixNumber m) v := by
  have each : Machine.round m = fun v r => (List.range 8).foldl (fun v j => mixNumber m v (8 * r + j)) v :=
    funext₂ (round_eq_mixNumbers m)
  rw [rounds, each, ← foldl_range_mul (mixNumber m) v 8 12]

/-- An invocation by its number, as rules R36 and R38 write it. -/
theorem mixNumber_eq (m v : Vector Word 16) (k : Nat) :
    mixNumber m v k = mixG v (quadruples[k % 8]'(Nat.mod_lt k (by decide)))
      m[(sigmaRow (k / 8))[2 * (k % 8)]'(by omega)] m[(sigmaRow (k / 8))[2 * (k % 8) + 1]'(by omega)] := rfl

/-- A word of F's result: the state's word and two words of the work vector after the rounds. -/
theorem compressF_getElem (h : Vector Word 8) (m : Vector Word 16) (t0 t1 : Word) (f : Bool) (i : Nat) (hi : i < 8) :
    (compressF h m t0 t1 f)[i] =
      h[i] ^^^ (rounds m (workVector h t0 t1 f))[i] ^^^ (rounds m (workVector h t0 t1 f))[i + 8] := by
  rw [compressF, Vector.getElem_ofFn, xor64, xor64, Fin.getElem_fin]

/-- Settles O15: F feeds `rounds` forward, and those are the 96 invocations. -/
theorem compressionIsNinetySixMixes : Obligations.CompressionIsNinetySixMixes := by
  intro h m t0 t1 f v run i
  have same : rounds m (workVector h t0 t1 f) = v := by
    rw [rounds_eq_mixNumbers, funext₂ (mixNumber_eq m), run]
  rw [Fin.getElem_fin, compressF_getElem, same, Fin.getElem_fin]

end Sys2Proof.Machine
end

section
/-! SUPPORT. UPDATE (rule R47) in closed form: the counter and the fill level from the lengths alone, the buffer slot by
slot, and a payload taken in as one operation that two payloads in a row compose to. -/

namespace Sys2Proof.Machine

/-! ### The counter and the fill level -/

/-- A payload advances the counter by 128 for every block but the last of the waiting bytes and the payload. -/
theorem State.absorbAll_counter (data : List Byte) (s : State) :
    (data.foldl State.absorb s).counter =
      (s.counter + 128 * ((s.buflen.val + data.length - 1) / 128)) % 2 ^ 128 := by
  have folded := congrArg Prod.snd (s.absorbAll_chunks data).1
  rw [foldl_hashStep_counter _ _ _ s.counter_lt, fullChunks_length, List.length_append, s.waiting_length] at folded
  exact folded

/-- The last of those blocks fills the buffer to its length. -/
theorem State.absorbAll_buflen_eq (data : List Byte) (s : State) :
    (data.foldl State.absorb s).buflen.val =
      s.buflen.val + data.length - 128 * ((s.buflen.val + data.length - 1) / 128) := by
  rw [s.absorbAll_buflen data, lastChunk_length, List.length_append, s.waiting_length]

/-- A payload that fits in the buffer compresses nothing. -/
theorem State.absorbAll_fits (data : List Byte) (s : State) (fits : s.buflen.val + data.length ≤ 128) :
    (data.foldl State.absorb s).h = s.h ∧ (data.foldl State.absorb s).t0 = s.t0 ∧
      (data.foldl State.absorb s).t1 = s.t1 := by
  have oneChunk : (s.waiting ++ data).length ≤ 128 := by rwa [List.length_append, s.waiting_length]
  have kept := (s.absorbAll_chunks data).1
  rw [fullChunks_short _ oneChunk, List.foldl_nil] at kept
  obtain ⟨h, counter⟩ := Prod.ext_iff.mp kept
  exact ⟨h, State.words_eq_of_counter_eq counter⟩

/-- Settles O28: the counter and the fill level in closed form; the frame is `absorbAll_frame`. -/
theorem updateCompletes : Obligations.UpdateCompletes := by
  intro data s live some
  obtain ⟨outlen, -, inbox, responses, draws⟩ := State.absorbAll_frame data s
  have blocks : (s.buflen.val + data.length + 127) / 128 - 1 = (s.buflen.val + data.length - 1) / 128 := by omega
  have bytes := List.length_pos_iff.mpr some
  have buflen := s.absorbAll_buflen_eq data
  rw [blocks]
  refine ⟨_, exec_update_bytes data s live some, rfl, s.absorbAll_counter data, buflen, ?_, ?_,
    s.absorbAll_fits data, outlen, ?_, inbox, draws⟩
  · rw [State.respond_buflen, State.setTag_buflen, buflen]
    omega
  · rw [State.respond_buflen, State.setTag_buflen, buflen]
    omega
  · rw [State.respond_responses, State.setTag_responses, responses]

/-- Settles O31: `absorbAll_chunks`, which has the buffer's leading bytes as `waiting`. -/
theorem updateCompressesAllButTheLastPiece : Obligations.UpdateCompressesAllButTheLastPiece := by
  intro data s live some
  obtain ⟨hash, waiting⟩ := s.absorbAll_chunks data
  exact ⟨_, exec_update_bytes data s live some, hash, waiting⟩

/-! ### The buffer, slot by slot -/

/-- The slot of the next byte moves on by one, and from the last slot to the first. -/
theorem State.absorb_next_slot (s : State) (b : Byte) (k : Nat) :
    ((s.absorb b).buflen.val + k) % 128 = (s.buflen.val + (k + 1)) % 128 := by
  have := s.buflen.isLt
  rw [State.absorb_buflen]
  split <;> omega

/-- A slot that no payload byte goes to keeps its byte. -/
theorem State.absorbAll_buf_kept {data : List Byte} {s : State} {i : Nat} (hi : i < 128)
    (missed : ∀ k, k < data.length → (s.buflen.val + k) % 128 ≠ i) :
    (data.foldl State.absorb s).buf[i] = s.buf[i] := by
  induction data generalizing s with
  | nil => rfl
  | cons b data ih =>
    have first : s.buflen.val % 128 ≠ i := missed 0 (Nat.succ_pos _)
    rw [List.foldl_cons, ih fun k hk => s.absorb_next_slot b k ▸ missed (k + 1) (Nat.succ_lt_succ hk)]
    simp only [State.absorb_buf, Vector.getElem_set_ne _ hi first]

/-- A payload byte stays in its slot when fewer than 128 bytes come after it. -/
theorem State.absorbAll_buf_stored {data : List Byte} {s : State} {i k : Nat} (hi : i < 128) (hk : k < data.length)
    (near : data.length ≤ k + 128) (slot : (s.buflen.val + k) % 128 = i) :
    (data.foldl State.absorb s).buf[i] = data[k] := by
  induction data generalizing s k with
  | nil => exact absurd hk (Nat.not_lt_zero k)
  | cons b data ih =>
    rw [List.length_cons] at hk near
    cases k with
    | zero =>
      have later : ∀ k, k < data.length → ((s.absorb b).buflen.val + k) % 128 ≠ i := by
        intro k hk
        rw [State.absorb_next_slot]
        omega
      rw [List.foldl_cons, State.absorbAll_buf_kept hi later]
      simp only [State.absorb_buf, ← slot, Nat.add_zero, Vector.getElem_set_self, List.getElem_cons_zero]
    | succ k =>
      rw [List.foldl_cons, List.getElem_cons_succ]
      exact ih (by omega) (by omega) ((s.absorb_next_slot b k).trans slot)

/-! ### UPDATE as one operation on a context in progress -/

/-- What UPDATE does to a context in progress, the response apart; `exec_update_live` ties it to `exec`. -/
def State.takeIn (s : State) (data : List Byte) : State :=
  if data = [] then s else (data.foldl State.absorb s).setTag .active

theorem State.takeIn_nil (s : State) : s.takeIn [] = s := rfl

theorem State.takeIn_bytes (s : State) {data : List Byte} (some : data ≠ []) :
    s.takeIn data = (data.foldl State.absorb s).setTag .active := if_neg some

/-- UPDATE on a context in progress, whatever the payload (rule R47). -/
theorem exec_update_live (data : List Byte) (s : State) (live : s.tag ≠ .finalized) :
    exec (.update data) s = .next ((s.takeIn data).respond .ok []) := by
  by_cases none : data = []
  · subst none
    exact exec_update_empty s live
  · rw [exec_update_bytes data s live none, s.takeIn_bytes none]

/-- The buffer holds the bytes taken in, an empty payload being no exception. -/
theorem State.takeIn_buf (s : State) (data : List Byte) : (s.takeIn data).buf = (data.foldl State.absorb s).buf := by
  by_cases none : data = []
  · subst none
    rfl
  · rw [s.takeIn_bytes none, State.setTag_buf]

/-- A context in progress stays in progress. -/
theorem State.takeIn_live {s : State} (live : s.tag ≠ .finalized) (data : List Byte) :
    (s.takeIn data).tag ≠ .finalized := by
  by_cases none : data = []
  · subst none
    exact live
  · rw [s.takeIn_bytes none, State.setTag_tag]
    decide

/-- Taking in a payload looks at no response. -/
theorem State.takeIn_respond (s : State) (data : List Byte) (st : Status) (d : List Byte) :
    (s.respond st d).takeIn data = (s.takeIn data).respond st d := by
  by_cases none : data = []
  · subst none
    rfl
  · rw [State.takeIn_bytes _ none, State.takeIn_bytes _ none, State.absorbAll_respond]
    rfl

/-- Two payloads in a row are one payload. -/
theorem State.takeIn_append (s : State) (P Q : List Byte) : s.takeIn (P ++ Q) = (s.takeIn P).takeIn Q := by
  by_cases noP : P = []
  · subst noP
    rfl
  · by_cases noQ : Q = []
    · subst noQ
      rw [List.append_nil, State.takeIn_nil]
    · have some := List.append_ne_nil_of_left_ne_nil noP Q
      rw [State.takeIn_bytes _ noP, State.takeIn_bytes _ noQ, State.takeIn_bytes _ some, State.absorbAll_setTag,
        List.foldl_append]
      rfl

/-- Settles O30: a byte goes to the slot at the fill level and is overwritten by the byte 128 later. -/
theorem updateStoresPayloadBytes : Obligations.UpdateStoresPayloadBytes := by
  intro data s t live run
  obtain rfl := next_injective ((exec_update_live data s live).symm.trans run)
  simp only [State.respond_buf, State.takeIn_buf]
  exact ⟨fun k inData near => State.absorbAll_buf_stored (Nat.mod_lt _ (by decide)) inData near rfl,
    fun i missed => State.absorbAll_buf_kept i.isLt missed⟩

/-- Settles O32: `takeIn_append`; the response between the two payloads is not looked at. -/
theorem splitUpdatesAgree : Obligations.SplitUpdatesAgree := by
  intro P Q s t u w live first second whole
  obtain rfl := next_injective ((exec_update_live P s live).symm.trans first)
  have live' : ((s.takeIn P).respond .ok []).tag ≠ .finalized := State.takeIn_live live P
  obtain rfl := next_injective ((exec_update_live Q _ live').symm.trans second)
  obtain rfl := next_injective ((exec_update_live (P ++ Q) s live).symm.trans whole)
  rw [State.takeIn_respond, State.takeIn_append]
  exact ⟨rfl, rfl, rfl, rfl, rfl, rfl, rfl⟩

/-- Settles O29: an empty payload is only answered. -/
theorem emptyUpdateChangesNothing : Obligations.EmptyUpdateChangesNothing :=
  fun s live => ⟨_, exec_update_empty s live, ⟨rfl, rfl, rfl, rfl, rfl, rfl, rfl⟩, rfl, rfl, rfl⟩

/-- Settles O24: F reads the words of the advanced counter, which `ctrAdd_counter` gives as one number. -/
theorem compressReadsTheAdvancedCounter : Obligations.CompressReadsTheAdvancedCounter := by
  intro s n f _
  have counter := s.ctrAdd_counter n
  refine ⟨counter, ?_, rfl⟩
  rw [State.compress_h, (s.ctrAdd n).t0_eq_counter, (s.ctrAdd n).t1_eq_counter, counter]

end Sys2Proof.Machine
end

section
/-! SUPPORT. Steps and single commands (rules R9, R17, R18, R25, R60, R67, R68, R73, R75): what a step runs, that it
always answers, and how often. -/

namespace Sys2Proof.Machine

/-! ### Steps -/

/-- Settles O5: `step_command_ok`, for an encoding by `decode_encode`. -/
theorem stepRunsTheDecodedCommand : Obligations.StepRunsTheDecodedCommand :=
  ⟨step_command_ok, fun s i wf => step_command_ok (s.send _) _ s.inbox i (s.send_inbox _) (decode_encode i wf)⟩

/-- Settles O6: `step_idle` and `step_reset`. -/
theorem waitingAndReset : Obligations.WaitingAndReset :=
  ⟨step_idle, fun s rest head => ⟨_, step_reset s rest head, State.discard_tag _, State.discard_inbox _,
    State.discard_responses _⟩⟩

/-- Every command answers a next state. -/
theorem exec_answers (i : Instr) (s : State) : ∃ t, exec i s = .next t := by
  rcases exec_cases i s with ⟨-, refused⟩ | ⟨-, t, -, ok, -⟩
  · exact ⟨_, refused⟩
  · exact ⟨t, ok⟩

/-- Settles O36: each of the cases of `step_cases` answers. -/
theorem everyStepAnswers : Obligations.EveryStepAnswers := by
  intro s
  rcases step_cases s with ⟨-, idle⟩ | ⟨rest, -, reset⟩ | ⟨c, rest, e, -, -, illegal⟩ | ⟨c, rest, i, -, -, runs⟩
  · exact ⟨_, idle⟩
  · exact ⟨_, reset⟩
  · exact ⟨_, illegal⟩
  · obtain ⟨t, run⟩ := exec_answers i { s with inbox := rest }
    exact ⟨t, runs.trans run⟩

/-! ### Responses (rules R25, R73) -/

/-- A command looks at no event to come and gives one response; a digest stands only in the one of a successful FINAL,
with as many bytes as the output length says. -/
theorem exec_response (i : Instr) (s : State) :
    ∃ t r, exec i s = .next t ∧ t.inbox = s.inbox ∧ t.responses = s.responses ++ [r] ∧
      (i = .final → r.status = .ok → r.digest.length = s.outlen.val) ∧ (i ≠ .final → r.digest = []) := by
  cases i with
  | init nn key =>
    rcases exec_init_cases nn key s with ⟨n, -, -, ok⟩ | ⟨-, refused⟩
    · exact ⟨_, _, ok, rfl, rfl, nofun, fun _ => rfl⟩
    · exact ⟨_, _, refused, rfl, rfl, nofun, fun _ => rfl⟩
  | update data =>
    rcases exec_update_cases data s with ⟨-, refused⟩ | ⟨-, -, kept⟩ | ⟨-, -, taken⟩
    · exact ⟨_, _, refused, rfl, rfl, nofun, fun _ => rfl⟩
    · exact ⟨_, _, kept, rfl, rfl, nofun, fun _ => rfl⟩
    · obtain ⟨-, -, inbox, responses, -⟩ := State.absorbAll_frame data s
      refine ⟨_, ⟨.ok, []⟩, taken, inbox, ?_, nofun, fun _ => rfl⟩
      rw [State.respond_responses, State.setTag_responses, responses]
  | final =>
    rcases exec_final_cases s with ⟨-, refused⟩ | ⟨-, ok⟩
    · exact ⟨_, _, refused, rfl, rfl, fun _ => nofun, fun other => absurd rfl other⟩
    · exact ⟨_, _, ok, rfl, rfl, fun _ _ => extract_length _ _, fun other => absurd rfl other⟩

/-- So does a step on a command, also on a pair that is none. -/
theorem step_command_response {s : State} {c : Command} {rest : List Event} (head : s.inbox = .command c :: rest) :
    ∃ t r, step s = .next t ∧ t.inbox = rest ∧ t.responses = s.responses ++ [r] ∧
      (decode c = .ok .final → r.status = .ok → r.digest.length = s.outlen.val) ∧
      (decode c ≠ .ok .final → r.digest = []) := by
  cases hd : decode c with
  | error e => exact ⟨_, _, step_command_illegal s c rest e head hd, rfl, rfl, nofun, fun _ => rfl⟩
  | ok i =>
    obtain ⟨t, r, run, inbox, responses, final, other⟩ := exec_response i { s with inbox := rest }
    exact ⟨t, r, (step_command_ok s c rest i head hd).trans run, inbox, responses,
      fun eq => final (Except.ok.inj eq), fun ne => other fun eq => ne (congrArg Except.ok eq)⟩

/-- Settles O37: `step_command_response`; that a refused command writes nothing is
`refusedCommandsChangeNothing`. -/
theorem oneResponsePerCommand : Obligations.OneResponsePerCommand := by
  refine ⟨⟨rfl, rfl, rfl, rfl⟩, fun s c rest head => ?_⟩
  obtain ⟨t, r, next, inbox, responses, final, other⟩ := step_command_response head
  refine ⟨t, r, next, inbox, responses, fun notOk => ?_, final, other⟩
  obtain ⟨empty, rfl⟩ := refusedCommandsChangeNothing s t c rest r head next responses notOk
  exact ⟨empty, rfl, rfl, rfl, rfl, rfl, rfl, rfl⟩

/-- Settles O35: FINAL ends the computation, whether it answers a digest or not (`exec_final_tag`). -/
theorem noSecondDigest : Obligations.NoSecondDigest :=
  fun _ t run => ⟨exec_final_refused t (exec_final_tag run),
    fun data => exec_update_refused data t (exec_final_tag run)⟩

/-! ### INIT and the output length (rules R9, R17, R67) -/

/-- INIT writes the output length it is given, or nothing. -/
theorem exec_init_outlen {nn : Nat} {key : List Byte} {s t : State} (run : exec (.init nn key) s = .next t) :
    (1 ≤ nn ∧ nn ≤ 64 ∧ key.length ≤ 64 → t.outlen.val = nn) ∧
      (¬ (1 ≤ nn ∧ nn ≤ 64 ∧ key.length ≤ 64) → t.outlen = s.outlen) := by
  rcases exec_init_cases nn key s with ⟨n, rfl, short, ok⟩ | ⟨out, refused⟩
  · obtain rfl := next_injective (ok.symm.trans run)
    exact ⟨fun _ => rfl, fun out => absurd ⟨n.one_le, n.le_64, short⟩ out⟩
  · obtain rfl := next_injective (refused.symm.trans run)
    exact ⟨fun range => absurd range out, fun _ => rfl⟩

/-- UPDATE does not write it. -/
theorem exec_update_outlen {data : List Byte} {s t : State} (run : exec (.update data) s = .next t) :
    t.outlen = s.outlen := by
  rcases exec_update_cases data s with ⟨-, refused⟩ | ⟨-, -, kept⟩ | ⟨-, -, taken⟩
  · obtain rfl := next_injective (refused.symm.trans run)
    exact State.raise_outlen _ _
  · obtain rfl := next_injective (kept.symm.trans run)
    exact State.respond_outlen _ _ _
  · obtain rfl := next_injective (taken.symm.trans run)
    rw [State.respond_outlen, State.setTag_outlen, (State.absorbAll_frame data s).1]

/-- Settles O41: a step that leaves a computation in progress and is no INIT is idle, a refusal or an UPDATE. -/
theorem outputLengthIsFixedByInit : Obligations.OutputLengthIsFixedByInit := by
  refine ⟨fun nn key s t run => exec_init_outlen run, fun s t next live noInit => ?_⟩
  rcases step_cases s with ⟨-, idle⟩ | ⟨rest, head, -⟩ | ⟨c, rest, e, -, -, illegal⟩ | ⟨c, rest, i, head, hd, runs⟩
  · obtain rfl := next_injective (idle.symm.trans next)
    rfl
  · exact absurd (step_reset_tag head next) live
  · obtain rfl := next_injective (illegal.symm.trans next)
    exact State.raise_outlen _ _
  · have run := runs.symm.trans next
    cases i with
    | init nn key => exact absurd hd (noInit c rest nn key head)
    | update data => exact exec_update_outlen (s := { s with inbox := rest }) run
    | final => exact absurd (exec_final_tag run) live

/-- Settles O27: INIT writes every element from its operands alone. -/
theorem repeatedInitWritesTheSame : Obligations.RepeatedInitWritesTheSame := by
  intro nn key s t u first second
  rcases exec_init_cases nn key s with ⟨n, rfl, short, ok⟩ | ⟨out, refused⟩
  · obtain rfl := next_injective (ok.symm.trans first)
    obtain rfl := next_injective ((exec_init_ok n key _ short).symm.trans second)
    exact ⟨rfl, rfl, rfl, rfl, rfl, rfl, rfl⟩
  · obtain rfl := next_injective ((exec_init_refused nn key t out).symm.trans second)
    exact ⟨rfl, rfl, rfl, rfl, rfl, rfl, rfl⟩

/-- Settles O7: after reset the tag refuses UPDATE and FINAL, and INIT overwrites all six unspecified elements. -/
theorem resetAcceptsOnlyInit : Obligations.ResetAcceptsOnlyInit := by
  refine ⟨fun o => ⟨State.resetWith_tag o, State.resetWith_responses o⟩, State.reset_tag,
    fun o data => ⟨exec_update_refused data _ (State.resetWith_tag o), exec_final_refused _ (State.resetWith_tag o)⟩,
    fun o o' nn key ge le short =>
      ⟨_, exec_init_ok ⟨nn, ge, le⟩ key _ short, exec_init_ok ⟨nn, ge, le⟩ key _ short, ?_⟩⟩
  rw [State.respond_tag, State.startContext_tag]

end Sys2Proof.Machine
end

section
/-! SUPPORT. Several instances (rule R66): a step of one moves no other. -/

namespace Sys2Proof.Machine

/-- A position without a core has no step to make. -/
theorem stepInstance_none {k : Nat} {cores : List State} (absent : cores[k]? = none) :
    stepInstance k cores = .next cores := by
  rw [stepInstance, absent]

/-- A step of a core replaces it by its next state. -/
theorem stepInstance_some {k : Nat} {cores : List State} {s t : State} (here : cores[k]? = some s)
    (next : step s = .next t) : stepInstance k cores = .next (cores.set k t) := by
  simp only [stepInstance, here, next]

theorem runInstances_cons {k : Nat} {schedule : List Nat} {cores cores' : List State}
    (first : stepInstance k cores = .next cores') :
    runInstances (k :: schedule) cores = runInstances schedule cores' := by
  rw [runInstances, first]

/-- What one step of the schedule does, seen from each core: the scheduled one has made a step, the others none. -/
theorem stepInstance_answers (k : Nat) (cores : List State) :
    ∃ cores', stepInstance k cores = .next cores' ∧ cores'.length = cores.length ∧
      (∀ s, cores[k]? = some s → ∃ t, step s = .next t ∧ cores'[k]? = some t) ∧
      ∀ j, j ≠ k → cores'[j]? = cores[j]? := by
  cases here : cores[k]? with
  | none => exact ⟨cores, stepInstance_none here, rfl, nofun, fun _ _ => rfl⟩
  | some s =>
    obtain ⟨t, next⟩ := everyStepAnswers s
    obtain ⟨inside, -⟩ := List.getElem?_eq_some_iff.mp here
    refine ⟨cores.set k t, stepInstance_some here next, List.length_set, fun s' same => ?_,
      fun j other => List.getElem?_set_ne other.symm⟩
    obtain rfl := Option.some.inj same
    exact ⟨t, next, List.getElem?_set_self inside⟩

/-- Settles O54: by induction on the schedule; the first step is the scheduled core's own first step and none of any other's. -/
theorem instancesRunAsIfAlone : Obligations.InstancesRunAsIfAlone := by
  intro schedule
  induction schedule with
  | nil => exact fun cores => ⟨cores, rfl, rfl, fun _ s here => ⟨s, here, rfl⟩⟩
  | cons k schedule ih =>
    intro cores
    obtain ⟨cores₁, first, length₁, scheduled, others⟩ := stepInstance_answers k cores
    obtain ⟨cores', runs, length, alone⟩ := ih cores₁
    refine ⟨cores', (runInstances_cons first).trans runs, length.trans length₁, fun j s here => ?_⟩
    by_cases turn : j = k
    · subst turn
      obtain ⟨u, next, here'⟩ := scheduled s here
      obtain ⟨t, last, run⟩ := alone j u here'
      exact ⟨t, last, by rw [List.count_cons_self, run_succ _ s u next, run]⟩
    · obtain ⟨t, last, run⟩ := alone j s ((others j turn).trans here)
      exact ⟨t, last, by rw [List.count_cons_of_ne (Ne.symm turn), run]⟩

end Sys2Proof.Machine
end

section
/-! SUPPORT. What the host can learn (rules R5, R52, R60, R63, R67): the part of a context that responses depend on, and
the part of it that control depends on. -/

namespace Sys2Proof.Machine

/-! ### Contexts that agree up to the fill level -/

/-- Two contexts agree on everything but the buffer bytes past the fill level; `indistinguishable_iff` ties it to
`Indistinguishable`. -/
structure SameContext (s t : State) : Prop where
  hash : (s.h, s.counter) = (t.h, t.counter)
  waiting : s.waiting = t.waiting
  outlen : s.outlen = t.outlen

/-- The fill level is the number of waiting bytes. -/
theorem SameContext.buflen_eq {s t : State} (same : SameContext s t) : s.buflen = t.buflen := by
  apply Fin.ext
  rw [← s.waiting_length, ← t.waiting_length, same.waiting]

theorem SameContext.h_eq {s t : State} (same : SameContext s t) : s.h = t.h := congrArg Prod.fst same.hash

theorem SameContext.counter_eq {s t : State} (same : SameContext s t) : s.counter = t.counter :=
  congrArg Prod.snd same.hash

theorem indistinguishable_iff (s t : State) :
    Indistinguishable s t ↔ s.inbox = t.inbox ∧ s.tag = t.tag ∧ (s.tag ≠ .finalized → SameContext s t) := by
  constructor
  · rintro ⟨inbox, tag, agree⟩
    refine ⟨inbox, tag, fun live => ?_⟩
    obtain ⟨h, t0, t1, buflen, outlen, bytes⟩ := agree live
    refine ⟨?_, ?_, outlen⟩
    · rw [State.counter, State.counter, h, t0, t1]
    · rw [State.waiting_eq, bytes, buflen, State.waiting_eq]
  · rintro ⟨inbox, tag, agree⟩
    refine ⟨inbox, tag, fun live => ?_⟩
    have same := agree live
    obtain ⟨t0, t1⟩ := State.words_eq_of_counter_eq same.counter_eq
    refine ⟨same.h_eq, t0, t1, same.buflen_eq, same.outlen, ?_⟩
    rw [← State.waiting_eq, same.waiting, same.buflen_eq, State.waiting_eq]

/-- INIT reads nothing of the state it starts from. -/
theorem sameContext_startContext (s t : State) (nn : OutLen) (key : List Byte) :
    SameContext (s.startContext nn key) (t.startContext nn key) := ⟨rfl, rfl, rfl⟩

/-- A payload reads the hash state, the counter and the waiting bytes only. -/
theorem SameContext.absorbAll {s t : State} (same : SameContext s t) (data : List Byte) :
    SameContext (data.foldl State.absorb s) (data.foldl State.absorb t) := by
  obtain ⟨hash, waiting⟩ := s.absorbAll_chunks data
  obtain ⟨hash', waiting'⟩ := t.absorbAll_chunks data
  refine ⟨?_, ?_, ?_⟩
  · rw [hash, hash', same.hash, same.waiting]
  · rw [waiting, waiting', same.waiting]
  · rw [(State.absorbAll_frame data s).1, (State.absorbAll_frame data t).1, same.outlen]

/-- So does FINAL's compression, so the digests agree. -/
theorem SameContext.digest_eq {s t : State} (same : SameContext s t) :
    extract s.lastBlock.h s.lastBlock.outlen = extract t.lastBlock.h t.lastBlock.outlen := by
  rw [State.lastBlock_h, State.lastBlock_h, State.lastBlock_outlen, State.lastBlock_outlen, same.h_eq, same.counter_eq,
    same.waiting, same.buflen_eq, same.outlen]

/-- The tag is no part of the context. -/
theorem SameContext.setTag {s t : State} (same : SameContext s t) (tag : Tag) :
    SameContext (s.setTag tag) (t.setTag tag) := ⟨same.hash, same.waiting, same.outlen⟩

/-! ### States the host cannot tell apart (rules R8, R48, R67) -/

/-- Between computations nothing but the events to come matters: whatever was drawn, no command reads it before an
INIT. -/
theorem indistinguishable_of_finalized {s t : State} (inbox : s.inbox = t.inbox) (fin : s.tag = .finalized)
    (fin' : t.tag = .finalized) : Indistinguishable s t :=
  ⟨inbox, fin.trans fin'.symm, fun live => absurd fin live⟩

/-- The same INIT leads to contexts of which the host can tell nothing that came before. -/
theorem indistinguishable_startContext {s t : State} (inbox : s.inbox = t.inbox) (nn : OutLen) (key : List Byte) :
    Indistinguishable (s.startContext nn key) (t.startContext nn key) :=
  (indistinguishable_iff _ _).mpr
    ⟨inbox, (s.startContext_tag nn key).trans (t.startContext_tag nn key).symm,
      fun _ => sameContext_startContext s t nn key⟩

/-- Responses are not looked at again. -/
theorem Indistinguishable.respond {s t : State} (alike : Indistinguishable s t) (st st' : Status) (d d' : List Byte) :
    Indistinguishable (s.respond st d) (t.respond st' d') := alike

/-- Message bytes lead a context in progress to one the host can tell no better from the other's. -/
theorem Indistinguishable.absorbAll {s t : State} (alike : Indistinguishable s t) (live : s.tag ≠ .finalized)
    (data : List Byte) :
    Indistinguishable ((data.foldl State.absorb s).setTag .active) ((data.foldl State.absorb t).setTag .active) := by
  obtain ⟨inbox, -, agree⟩ := (indistinguishable_iff s t).mp alike
  obtain ⟨-, -, inbox₁, -⟩ := State.absorbAll_frame data s
  obtain ⟨-, -, inbox₂, -⟩ := State.absorbAll_frame data t
  refine (indistinguishable_iff _ _).mpr ⟨?_, ?_, fun _ => ((agree live).absorbAll data).setTag .active⟩
  · rw [State.setTag_inbox, State.setTag_inbox, inbox₁, inbox₂, inbox]
  · rw [State.setTag_tag, State.setTag_tag]

/-- A command gives two states the host cannot tell apart one and the same response, and leaves two such states. -/
theorem Indistinguishable.exec {s s' : State} (alike : Indistinguishable s s') (i : Instr) :
    ∃ t t' r, exec i s = .next t ∧ exec i s' = .next t' ∧ Indistinguishable t t' ∧
      t.responses = s.responses ++ [r] ∧ t'.responses = s'.responses ++ [r] := by
  obtain ⟨inbox, tag, agree⟩ := (indistinguishable_iff s s').mp alike
  cases i with
  | init nn key =>
    rcases exec_init_cases nn key s with ⟨n, rfl, short, ok⟩ | ⟨out, refused⟩
    · exact ⟨_, _, _, ok, exec_init_ok n key s' short,
        (indistinguishable_startContext inbox n key).respond _ _ _ _, rfl, rfl⟩
    · exact ⟨_, _, _, refused, exec_init_refused nn key s' out, alike.respond _ _ _ _, rfl, rfl⟩
  | update data =>
    rcases exec_update_cases data s with ⟨fin, refused⟩ | ⟨live, rfl, kept⟩ | ⟨live, some, taken⟩
    · exact ⟨_, _, _, refused, exec_update_refused data s' (tag ▸ fin), alike.respond _ _ _ _, rfl, rfl⟩
    · exact ⟨_, _, _, kept, exec_update_empty s' (tag ▸ live), alike.respond _ _ _ _, rfl, rfl⟩
    · obtain ⟨-, -, -, responses, -⟩ := State.absorbAll_frame data s
      obtain ⟨-, -, -, responses', -⟩ := State.absorbAll_frame data s'
      refine ⟨_, _, ⟨.ok, []⟩, taken, exec_update_bytes data s' (tag ▸ live) some,
        (alike.absorbAll live data).respond _ _ _ _, ?_, ?_⟩
      · rw [State.respond_responses, State.setTag_responses, responses]
      · rw [State.respond_responses, State.setTag_responses, responses']
  | final =>
    rcases exec_final_cases s with ⟨fin, refused⟩ | ⟨live, ok⟩
    · exact ⟨_, _, _, refused, exec_final_refused s' (tag ▸ fin), alike.respond _ _ _ _, rfl, rfl⟩
    · have ok' := exec_final_ok s' (tag ▸ live)
      rw [← (agree live).digest_eq] at ok'
      have alike' := indistinguishable_of_finalized (s := s.lastBlock.discard) (t := s'.lastBlock.discard) inbox
        (State.discard_tag _) (State.discard_tag _)
      exact ⟨_, _, _, ok, ok', alike'.respond _ _ _ _, rfl, rfl⟩

/-- Taking the same event out of both inboxes. -/
theorem Indistinguishable.setInbox {s s' : State} (alike : Indistinguishable s s') (es : List Event) :
    Indistinguishable { s with inbox := es } { s' with inbox := es } := ⟨rfl, alike.2⟩

/-- Settles O51: the same event is next for both states; a command is `Indistinguishable.exec`. -/
theorem indistinguishableStatesStaySo : Obligations.IndistinguishableStatesStaySo := by
  intro s s' t t' alike next next'
  have inbox : s'.inbox = s.inbox := alike.1.symm
  rcases step_cases s with ⟨none, idle⟩ | ⟨rest, head, reset⟩ | ⟨c, rest, e, head, hd, illegal⟩ |
    ⟨c, rest, i, head, hd, runs⟩
  · obtain rfl := next_injective (idle.symm.trans next)
    obtain rfl := next_injective ((step_idle s' (inbox.trans none)).symm.trans next')
    exact ⟨alike, [], (List.append_nil _).symm, (List.append_nil _).symm⟩
  · obtain rfl := next_injective (reset.symm.trans next)
    obtain rfl := next_injective ((step_reset s' rest (inbox.trans head)).symm.trans next')
    exact ⟨indistinguishable_of_finalized rfl (State.discard_tag _) (State.discard_tag _), [],
      (List.append_nil _).symm, (List.append_nil _).symm⟩
  · obtain rfl := next_injective (illegal.symm.trans next)
    obtain rfl := next_injective ((step_command_illegal s' c rest e (inbox.trans head) hd).symm.trans next')
    exact ⟨(alike.setInbox rest).respond _ _ _ _, [⟨.illegalCommand, []⟩], rfl, rfl⟩
  · obtain ⟨u, u', r, run, run', alike', responses, responses'⟩ := (alike.setInbox rest).exec i
    obtain rfl := next_injective (run.symm.trans (runs.symm.trans next))
    have runs' := step_command_ok s' c rest i (inbox.trans head) hd
    obtain rfl := next_injective (run'.symm.trans (runs'.symm.trans next'))
    exact ⟨alike', [r], responses, responses'⟩

/-- Settles O52: INIT writes every element. -/
theorem initForgetsThePast : Obligations.InitForgetsThePast := by
  intro s s' nn key inbox ge le short
  exact ⟨_, _, exec_init_ok ⟨nn, ge, le⟩ key s short, exec_init_ok ⟨nn, ge, le⟩ key s' short,
    (indistinguishable_startContext inbox _ key).respond _ _ _ _⟩

/-- Settles O42: a refused command leaves the state as `refusedCommandsChangeNothing` says, the command taken out of the
inbox again. -/
theorem errorsLeaveNoTrace : Obligations.ErrorsLeaveNoTrace := by
  intro s t c r next answer notOk
  obtain ⟨-, rfl⟩ := refusedCommandsChangeNothing (s.send (.command c)) t c s.inbox r rfl next answer notOk
  exact ⟨⟨rfl, rfl, fun _ => ⟨rfl, rfl, rfl, rfl, rfl, rfl⟩⟩, rfl⟩

/-! ### Control and data (rule R5) -/

/-- Two contexts agree on what is counted and not on what is stored: the fill level, the counter and the output
length. -/
structure SameControl (s t : State) : Prop where
  buflen : s.buflen = t.buflen
  counter : s.counter = t.counter
  outlen : s.outlen = t.outlen

/-- Payloads of one length move the fill level and the counter alike. -/
theorem SameControl.absorbAll {s t : State} (same : SameControl s t) {data data' : List Byte}
    (length : data.length = data'.length) :
    SameControl (data.foldl State.absorb s) (data'.foldl State.absorb t) := by
  refine ⟨Fin.ext ?_, ?_, ?_⟩
  · rw [State.absorbAll_buflen_eq, State.absorbAll_buflen_eq, same.buflen, length]
  · rw [State.absorbAll_counter, State.absorbAll_counter, same.counter, same.buflen, length]
  · rw [(State.absorbAll_frame data s).1, (State.absorbAll_frame data' t).1, same.outlen]

/-- The tag is no part of the shape. -/
theorem SameControl.setTag {s t : State} (same : SameControl s t) (tag : Tag) :
    SameControl (s.setTag tag) (t.setTag tag) := ⟨same.buflen, same.counter, same.outlen⟩

/-- Sequences of one length are empty together. -/
theorem eq_nil_iff_of_length_eq {l l' : List Byte} (length : l.length = l'.length) : l = [] ↔ l' = [] := by
  rw [← List.length_eq_zero_iff, length, List.length_eq_zero_iff]

/-- Keys of one length start contexts of one shape. -/
theorem sameControl_startContext (s t : State) (nn : OutLen) {key key' : List Byte}
    (length : key.length = key'.length) :
    SameControl (s.startContext nn key) (t.startContext nn key') := by
  constructor
  · rw [State.startContext_buflen, State.startContext_buflen, if_congr (eq_nil_iff_of_length_eq length) rfl rfl]
  · rw [State.startContext_counter, State.startContext_counter]
  · rw [State.startContext_outlen, State.startContext_outlen]

/-- What rule R5 asks of `t` and `t'`, reached by one command each from `s` and `s'`. -/
def AnswersAlike (s s' t t' : State) : Prop :=
  t.tag = t'.tag ∧
  (t.tag ≠ .finalized → t.buflen = t'.buflen ∧ t.t0 = t'.t0 ∧ t.t1 = t'.t1 ∧ t.outlen = t'.outlen) ∧
  ∃ r r', t.responses = s.responses ++ [r] ∧ t'.responses = s'.responses ++ [r'] ∧ r.status = r'.status ∧
    r.digest.length = r'.digest.length

/-- Two contexts of one shape, answered with one status and digests of one length. -/
theorem answersAlike_respond {s s' u u' : State} (tag : u.tag = u'.tag) (same : u.tag ≠ .finalized → SameControl u u')
    (responses : u.responses = s.responses) (responses' : u'.responses = s'.responses) (st : Status) {d d' : List Byte}
    (length : d.length = d'.length) : AnswersAlike s s' (u.respond st d) (u'.respond st d') := by
  refine ⟨tag, fun live => ?_, ⟨st, d⟩, ⟨st, d'⟩, ?_, ?_, rfl, length⟩
  · obtain ⟨buflen, counter, outlen⟩ := same live
    obtain ⟨t0, t1⟩ := State.words_eq_of_counter_eq counter
    exact ⟨buflen, t0, t1, outlen⟩
  · rw [State.respond_responses, responses]
  · rw [State.respond_responses, responses']

/-- INIT with keys of one length. -/
theorem exec_init_alike {s s' t t' : State} (tag : s.tag = s'.tag) (same : SameControl s s') {nn : Nat}
    {key key' : List Byte} (length : key.length = key'.length) (run : exec (.init nn key) s = .next t)
    (run' : exec (.init nn key') s' = .next t') : AnswersAlike s s' t t' := by
  rcases exec_init_cases nn key s with ⟨n, rfl, short, ok⟩ | ⟨out, refused⟩
  · obtain rfl := next_injective (ok.symm.trans run)
    obtain rfl := next_injective ((exec_init_ok n key' s' (length ▸ short)).symm.trans run')
    exact answersAlike_respond ((s.startContext_tag n key).trans (s'.startContext_tag n key').symm)
      (fun _ => sameControl_startContext s s' n length) rfl rfl .ok rfl
  · obtain rfl := next_injective (refused.symm.trans run)
    obtain rfl := next_injective ((exec_init_refused nn key' s' (length ▸ out)).symm.trans run')
    exact answersAlike_respond tag (fun _ => same) rfl rfl .invalidParameter rfl

/-- UPDATE with payloads of one length. -/
theorem exec_update_alike {s s' t t' : State} (tag : s.tag = s'.tag) (same : SameControl s s')
    {data data' : List Byte} (length : data.length = data'.length) (run : exec (.update data) s = .next t)
    (run' : exec (.update data') s' = .next t') : AnswersAlike s s' t t' := by
  rcases exec_update_cases data s with ⟨fin, refused⟩ | ⟨live, rfl, kept⟩ | ⟨live, some, taken⟩
  · obtain rfl := next_injective (refused.symm.trans run)
    obtain rfl := next_injective ((exec_update_refused data' s' (tag ▸ fin)).symm.trans run')
    exact answersAlike_respond tag (fun _ => same) rfl rfl .invalidUsage rfl
  · obtain rfl := (eq_nil_iff_of_length_eq length).mp rfl
    obtain rfl := next_injective (kept.symm.trans run)
    obtain rfl := next_injective ((exec_update_empty s' (tag ▸ live)).symm.trans run')
    exact answersAlike_respond tag (fun _ => same) rfl rfl .ok rfl
  · have some' : data' ≠ [] := mt (eq_nil_iff_of_length_eq length).mpr some
    obtain rfl := next_injective (taken.symm.trans run)
    obtain rfl := next_injective ((exec_update_bytes data' s' (tag ▸ live) some').symm.trans run')
    obtain ⟨-, -, -, responses, -⟩ := State.absorbAll_frame data s
    obtain ⟨-, -, -, responses', -⟩ := State.absorbAll_frame data' s'
    have tag' := (State.setTag_tag (data.foldl State.absorb s) .active).trans
      (State.setTag_tag (data'.foldl State.absorb s') .active).symm
    exact answersAlike_respond tag' (fun _ => (same.absorbAll length).setTag .active) responses responses' .ok rfl

/-- FINAL: the digests have the common output length. -/
theorem exec_final_alike {s s' t t' : State} (tag : s.tag = s'.tag) (same : SameControl s s')
    (run : exec .final s = .next t) (run' : exec .final s' = .next t') : AnswersAlike s s' t t' := by
  rcases exec_final_cases s with ⟨fin, refused⟩ | ⟨live, ok⟩
  · obtain rfl := next_injective (refused.symm.trans run)
    obtain rfl := next_injective ((exec_final_refused s' (tag ▸ fin)).symm.trans run')
    exact answersAlike_respond tag (fun _ => same) rfl rfl .invalidUsage rfl
  · obtain rfl := next_injective (ok.symm.trans run)
    obtain rfl := next_injective ((exec_final_ok s' (tag ▸ live)).symm.trans run')
    refine answersAlike_respond ((State.discard_tag _).trans (State.discard_tag _).symm)
      (fun live => absurd (State.discard_tag _) live) rfl rfl .ok ?_
    rw [extract_length, extract_length, State.lastBlock_outlen, State.lastBlock_outlen, same.outlen]

/-- Settles O53: one lemma for each command. -/
theorem controlIgnoresData : Obligations.ControlIgnoresData := by
  rintro s s' t t' i i' ⟨tag, buflen, t0, t1, outlen⟩ kinds run run'
  have same : SameControl s s' := ⟨buflen, by rw [State.counter, State.counter, t0, t1], outlen⟩
  rcases kinds with ⟨nn, key, key', length, rfl, rfl⟩ | ⟨data, data', length, rfl, rfl⟩ | ⟨rfl, rfl⟩
  · exact exec_init_alike tag same length run run'
  · exact exec_update_alike tag same length run run'
  · exact exec_final_alike tag same run run'

end Sys2Proof.Machine
end
